-- ==== Sys2Proof/Word.lean ====
section
/-! DEFINITION. The block's number sets (00_scope.md R12, R11): bytes, command words, bus addresses, register
pointers, device handles, actuator identifiers and exact rational time values. -/

namespace Sys2Proof

/-- `Byte`, the integers 0..255 (R12): register contents and data bytes, numbered as R13 says. -/
abbrev Byte := BitVec 8

/-- The 32-bit host command word `HCMD` (R100, R101). -/
abbrev Word := BitVec 32

/-- `Addr7`, a 7-bit bus address 0..127 (R12, R71). -/
abbrev Addr7 := Fin 128

/-- `Ptr`, a register offset 0..63 (R12, R36): the register pointer, 6 bits wide (R44). -/
abbrev Ptr := Fin 64

/-- `Handle`, the number of a device in construction order (R11, R270). -/
abbrev Handle := Nat

/-- `ActuatorId` (R11, R73), for the machine the host runs. The spec leaves the type open (any type with decidable
equality, no bound on how many), so the circuit, the machine and every meaning take it as an argument and only compare
identifiers; this is the argument where none is written. DESIGN CHOICE, log 5. -/
abbrev ActuatorId := Nat

/-- An instant or a duration of RTC time in milliseconds, exact (R12, R16, R181). -/
abbrev Millis := Rat

/-- An instant or a duration of PWM time in microseconds, exact (R12, R16, R229). -/
abbrev Micros := Rat

end Sys2Proof
end

