-- ==== Sys2Proof/Syntax.lean ====
section
/-! DEFINITION. The block's thirteen operations (30_encoding.md R103) with the operands their command words carry.
The side operands of R102 (handle, time, wall instant, actuator, PWM time) travel beside the word: they are on the
host port in the state, `Machine.SideOperands`. -/

namespace Sys2Proof

/-- One operation of the host port, one constructor for each row of spec/opcode_table.json. -/
inductive Instr where
  /-- `bus.register <a>, h`: `register(address, device)` takes an integer address in the abstract interface (R141). -/
  | busRegister (a : Int)
  /-- `bus.begin <a>, w|r`: `beginTransaction(address, isWrite)`, a START (R142). -/
  | busBegin (a : Addr7) (isWrite : Bool)
  /-- `bus.write <v>`: `writeByte(value)` (R143). -/
  | busWrite (v : Byte)
  /-- `bus.read ack|nack`: `readByte(ackFromMaster)` (R144). -/
  | busRead (ack : Bool)
  /-- `bus.end`: `endTransaction()`, a STOP (R145). -/
  | busEnd
  /-- `dev.tryconnect h, <a>, w|r`: `tryConnect(address, isWrite)` (R161). -/
  | devTryconnect (a : Addr7) (isWrite : Bool)
  /-- `dev.receive h, <v>`: `receiveByte(value)` (R162). -/
  | devReceive (v : Byte)
  /-- `dev.produce h, ack|nack`: `produceByte(willAck)` (R165). -/
  | devProduce (willAck : Bool)
  /-- `dev.disconnect h`: `disconnect()` (R166). -/
  | devDisconnect
  /-- `rtc.query h`: the convenience query (R194). -/
  | rtcQuery
  /-- `rtc.settime h, w`: the setter "forcing the time origin" (R195). -/
  | rtcSettime
  /-- `pwm.pin id, level`: `onPinLevel(actuatorId, level, now)` (R224). -/
  | pwmPin (level : Bool)
  /-- `pwm.resetall`: `resetAll()` (R225). -/
  | pwmResetall
  deriving DecidableEq, Repr

end Sys2Proof
end

