-- ==== Sys2Proof/WellFormed.lean ====
section
/-! DEFINITION. Which operations a command word can express (30_encoding.md R101, R104). -/

namespace Sys2Proof

/-- An operation is well formed when its operands fit the fields of the command word. The types of the operands see
to it everywhere but for `bus.register`, whose address is an integer in the abstract interface and 0..127 in the
7-bit field A (R141: an address outside is "unreachable through the 7-bit command word field"). -/
def Instr.wf : Instr → Bool
  | .busRegister a => decide (0 ≤ a ∧ a ≤ 127)
  | .busBegin _ _ => true
  | .busWrite _ => true
  | .busRead _ => true
  | .busEnd => true
  | .devTryconnect _ _ => true
  | .devReceive _ => true
  | .devProduce _ => true
  | .devDisconnect => true
  | .rtcQuery => true
  | .rtcSettime => true
  | .pwmPin _ => true
  | .pwmResetall => true

end Sys2Proof
end

