-- ==== Sys2Proof/Decode.lean ====
section
/-! DEFINITION. The decoder and the encoder of the host command word (30_encoding.md R100 to R106), written from the
opcode map of R103 and the fields of R101. -/

namespace Sys2Proof

/-- Field OP, `w[31:24]` (R104). -/
def opField (w : Word) : Byte := w.extractLsb' 24 8

/-- Field F, `w[23]`: write, acknowledge or high, by the operation (R101, R104). -/
def flagField (w : Word) : Bool := w.getLsbD 23

/-- Field A, `w[22:16]`, a 7-bit bus address (R104). -/
def addrField (w : Word) : Addr7 := (w.extractLsb' 16 7).toFin

/-- Field D, `w[7:0]`, a data byte (R104). -/
def dataField (w : Word) : Byte := w.extractLsb' 0 8

/-- One row of the opcode table: a word belongs to it when `w & mask = pattern` (R105). -/
structure OpRow where
  mnemonic : String
  mask     : Word
  pattern  : Word
  /-- the operation a word of the row stands for -/
  build    : Word → Instr

/-- The word belongs to the row (R105). -/
def OpRow.owns (r : OpRow) (w : Word) : Bool := w &&& r.mask == r.pattern

/-- The rows of the Bus operations (R103). -/
def busRows : List OpRow := [
  ⟨"bus.register", 0xFF80FFFF#32, 0x01000000#32, fun w => .busRegister (addrField w).val⟩,
  ⟨"bus.begin", 0xFF00FFFF#32, 0x02000000#32, fun w => .busBegin (addrField w) (flagField w)⟩,
  ⟨"bus.write", 0xFFFFFF00#32, 0x03000000#32, fun w => .busWrite (dataField w)⟩,
  ⟨"bus.read", 0xFF7FFFFF#32, 0x04000000#32, fun w => .busRead (flagField w)⟩,
  ⟨"bus.end", 0xFFFFFFFF#32, 0x05000000#32, fun _ => .busEnd⟩]

/-- The rows of the device port (R103). -/
def deviceRows : List OpRow := [
  ⟨"dev.tryconnect", 0xFF00FFFF#32, 0x10000000#32, fun w => .devTryconnect (addrField w) (flagField w)⟩,
  ⟨"dev.receive", 0xFFFFFF00#32, 0x11000000#32, fun w => .devReceive (dataField w)⟩,
  ⟨"dev.produce", 0xFF7FFFFF#32, 0x12000000#32, fun w => .devProduce (flagField w)⟩,
  ⟨"dev.disconnect", 0xFFFFFFFF#32, 0x13000000#32, fun _ => .devDisconnect⟩]

/-- The rows of the RTC's query and setter (R103). -/
def rtcRows : List OpRow := [
  ⟨"rtc.query", 0xFFFFFFFF#32, 0x20000000#32, fun _ => .rtcQuery⟩,
  ⟨"rtc.settime", 0xFFFFFFFF#32, 0x21000000#32, fun _ => .rtcSettime⟩]

/-- The rows of the PWM decoder (R103). -/
def pwmRows : List OpRow := [
  ⟨"pwm.pin", 0xFF7FFFFF#32, 0x30000000#32, fun w => .pwmPin (flagField w)⟩,
  ⟨"pwm.resetall", 0xFFFFFFFF#32, 0x31000000#32, fun _ => .pwmResetall⟩]

/-- The opcode table (R103 and spec/opcode_table.json). -/
def opTable : List OpRow := busRows ++ deviceRows ++ rtcRows ++ pwmRows

/-- Why a word is no operation (R105). -/
inductive DecodeError where
  /-- the opcode is none of the thirteen of R103 -/
  | reservedOpcode (op : Byte)
  /-- the R field or a field the operation does not use is not zero -/
  | nonzeroUnusedField (op : Byte)
  deriving DecidableEq, Repr

/-- The decoder: "a lookup on OP followed by the zero check of rule R105" (R106). -/
def decode (w : Word) : Except DecodeError Instr :=
  match opTable.find? (fun r => opField r.pattern == opField w) with
  | none => .error (.reservedOpcode (opField w))
  | some r => if r.owns w then .ok (r.build w) else .error (.nonzeroUnusedField (opField w))

/-- The word with the given fields, `OOOOOOOO FAAAAAAA 00000000 DDDDDDDD` (R101). -/
def packFields (op : Byte) (f : Bool) (a : BitVec 7) (d : Byte) : Word :=
  op ++ BitVec.ofBool f ++ a ++ 0#8 ++ d

/-- The command word of a well-formed operation (R103). A `bus.register` whose integer address is outside 0..127 has no
command word (R141, 91_not_in_source.md N18): what this total function answers there, the low seven bits of the address
in field A, is the model's own choice and not that operation's word (DESIGN CHOICE, log 15). Whoever needs a word asks
`wordOf`. -/
def encode : Instr → Word
  | .busRegister a => packFields 0x01#8 false (BitVec.ofInt 7 a) 0#8
  | .busBegin a w => packFields 0x02#8 w (BitVec.ofFin a) 0#8
  | .busWrite v => packFields 0x03#8 false 0#7 v
  | .busRead ack => packFields 0x04#8 ack 0#7 0#8
  | .busEnd => packFields 0x05#8 false 0#7 0#8
  | .devTryconnect a w => packFields 0x10#8 w (BitVec.ofFin a) 0#8
  | .devReceive v => packFields 0x11#8 false 0#7 v
  | .devProduce ack => packFields 0x12#8 ack 0#7 0#8
  | .devDisconnect => packFields 0x13#8 false 0#7 0#8
  | .rtcQuery => packFields 0x20#8 false 0#7 0#8
  | .rtcSettime => packFields 0x21#8 false 0#7 0#8
  | .pwmPin level => packFields 0x30#8 level 0#7 0#8
  | .pwmResetall => packFields 0x31#8 false 0#7 0#8

/-- The command word of an operation, none where it has none. -/
def wordOf (i : Instr) : Option Word := if i.wf then some (encode i) else none

/-- The command word that the host's number `w` of `nbits` bits stands for, the bits above `nbits` zero; none when it
does not fit the one word an operation has (R106). -/
def tableWord (nbits w : Nat) : Option Word :=
  if w % 2 ^ nbits < 2 ^ 32 then some (BitVec.ofNat 32 (w % 2 ^ nbits)) else none

/-- What the decoder reads from a table word. -/
def decodeTableWord (nbits w : Nat) : Option Instr :=
  match tableWord nbits w with
  | none => none
  | some x => (decode x).toOption

end Sys2Proof
end

