-- ==== Sys2Proof/Machine/Flags.lean ====
section
/-! DEFINITION. The flags that stand in register bits (10_state.md R45, R46; 00_scope.md R11). -/

namespace Sys2Proof.Machine

/-- `HALT_BIT`: bit 7 of the seconds register, 1 = clock halted (R45, R108). -/
def haltBit (b : Byte) : Bool := b.getLsbD 7

/-- `MODE_BIT`: bit 6 of the hours register, 1 = 12-hour (R45, R192). -/
def modeBit (b : Byte) : Bool := b.getLsbD 6

/-- `PM_BIT`: bit 5 of the hours register in 12-hour mode, 1 = PM (R45, R113). -/
def pmBit (b : Byte) : Bool := b.getLsbD 5

/-- The seconds register's contribution of the halt flag, `halt ? 0x80 : 0x00` (R108). -/
def haltMask (halt : Bool) : Byte := if halt then 0x80#8 else 0x00#8

/-- The hours register's contribution of the PM flag, `pm ? 0x20 : 0x00` (R113). -/
def pmMask (pm : Bool) : Byte := if pm then 0x20#8 else 0x00#8

end Sys2Proof.Machine
end

