-- ==== Sys2Proof/Config.lean ====
section
/-! DEFINITION. The parameters that 00_scope.md R11 leaves OPEN: constants with no body, so that whatever is proved
of the model holds for every value of them, and the parameters of one RTC's construction (70_reset_and_hazards.md
R271). The parameters R11 fixes stand in Machine/Params.lean. -/

namespace Sys2Proof

/-- `SEED_WALL` of the RTC of `Machine.State.reset`: the host wall-clock instant (ms) read once at construction. -/
opaque Config.seedWall : Millis

/-- `T0_MS` of the RTC of `Machine.State.reset`: the RTC time-source reading (ms) at construction. -/
opaque Config.t0Ms : Millis

/-- `INIT_CONTROL`: the control byte 0x07 after construction. -/
opaque Config.initControl : Byte

/-- `INIT_SCRATCH`: the scratch byte after construction at each offset 0x08..0x3F. -/
opaque Config.initScratch : Nat → Byte

/-- `IDLE_READ`: the byte a bus read returns with no device selected (40_bus.md R144). -/
opaque Config.idleRead : Byte

/-- Any rational; `Config.pwmInitAngle` brings it into 0..180. -/
opaque Config.pwmInitAngleRaw : Rat

/-- `PWM_INIT_ANGLE`: the angle of an actuator record at its lazy creation (43_pwm.md R221). It is any rational of
0..180, the range R43 gives the field. DESIGN CHOICE, log 4. -/
def Config.pwmInitAngle : Rat := min (max Config.pwmInitAngleRaw 0) 180

/-- `F_CPU`: the external core's clock frequency in Hz (R11), any rational. No operation of the block reads it; the host
turns cycles into time with it (R229). -/
opaque Config.fCpu : Rat

/-- The parameters of the construction of one RTC (70_reset_and_hazards.md R271). -/
structure RtcParams where
  /-- `RTC_ADDR`, the configured bus address of the RTC -/
  addr        : Addr7
  /-- `SEED_WALL`, ms on the wall scale of R181 -/
  seedWall    : Millis
  /-- `T0_MS`, the time-source reading at construction -/
  t0Ms        : Millis
  /-- `INIT_CONTROL` -/
  initControl : Byte
  /-- `INIT_SCRATCH`, by offset -/
  initScratch : Nat → Byte

/-- A device of a circuit that is to be constructed (R33, R270 step 2): an RTC with its parameters, or a chip of
another family, of which the spec says nothing. -/
inductive DeviceSpec where
  | rtc (p : RtcParams)
  | other

end Sys2Proof
end

