-- ==== Sys2Proof/Machine/Params.lean ====
section
/-! DEFINITION. The parameters that 00_scope.md R11 fixes, and the circuit that `State.reset` constructs. -/

namespace Sys2Proof.Machine

/-- `CENTURY_BASE` (R11, R118). -/
def centuryBase : Nat := 2000

/-- `PWM_MIN_WIDTH` (R11, R223). -/
def pwmMinWidth : Micros := 500

/-- `PWM_MAX_WIDTH` (R11, R223). -/
def pwmMaxWidth : Micros := 2500

/-- `PWM_ZERO_WIDTH` (R11, R222). -/
def pwmZeroWidth : Micros := 1000

/-- `PWM_SPAN` (R11, R222). -/
def pwmSpan : Micros := 1000

/-- `PWM_FULL_ANGLE` (R11, R222). -/
def pwmFullAngle : Rat := 180

/-- `PWM_NEUTRAL`, the neutral midpoint angle (R11, R225). -/
def pwmNeutral : Rat := 90

/-- The RTC of the circuit of `State.reset`: at 0x68, the address of the source's scenario (R81), with every other
parameter open. DESIGN CHOICE, log 1. -/
def scenarioRtc : RtcParams where
  addr := 0x68
  seedWall := Config.seedWall
  t0Ms := Config.t0Ms
  initControl := Config.initControl
  initScratch := Config.initScratch

/-- The devices of the circuit of `State.reset`: one RTC, handle h0. The spec leaves the circuit open (R11, row
`Handle`); `Block.construct` takes any list. DESIGN CHOICE, log 1. -/
def circuit : List DeviceSpec := [.rtc scenarioRtc]

/-- The host's RTC time for a cycle count, `t = cycles * 1000 / F_CPU` ms (R229, decision D4). -/
def hostMillis (cycles : Nat) : Millis := cycles * 1000 / Config.fCpu

/-- The host's PWM time for a cycle count, `now = cycles * 1 000 000 / F_CPU` µs (R229, decision D4). -/
def hostMicros (cycles : Nat) : Micros := cycles * 1000000 / Config.fCpu

end Sys2Proof.Machine
end

