-- ==== Sys2Proof/Machine/Operands.lean ====
section
/-! DEFINITION. The forms a register byte can have (30_encoding.md R108 to R119): the register offsets, the BCD and
hour codecs, and the encoder and decoder of each time register. -/

namespace Sys2Proof.Machine

/-- Offset 0x00, seconds and halt bit (R46). -/
def regSeconds : Ptr := 0x00
/-- Offset 0x01, minutes (R46). -/
def regMinutes : Ptr := 0x01
/-- Offset 0x02, hours and mode bit (R46). -/
def regHours : Ptr := 0x02
/-- Offset 0x03, weekday (R46). -/
def regWeekday : Ptr := 0x03
/-- Offset 0x04, date (R46). -/
def regDate : Ptr := 0x04
/-- Offset 0x05, month (R46). -/
def regMonth : Ptr := 0x05
/-- Offset 0x06, year (R46). -/
def regYear : Ptr := 0x06
/-- Offset 0x07, the control byte (R46, R119). -/
def regControl : Ptr := 0x07

/-- `bcd2dec(b) = 10 * b[7:4] + b[3:0]`, for every byte (R110). -/
def bcd2dec (b : Byte) : Nat := 10 * (b.extractLsb' 4 4).toNat + (b.extractLsb' 0 4).toNat

/-- `dec2bcd(v) = ((v div 10) << 4) | (v mod 10)` for v in 0..99; above, by `v mod 100`, a case no rule
reaches (R111; DESIGN CHOICE, log 13). -/
def dec2bcd (v : Nat) : Byte := (BitVec.ofNat 8 (v % 100 / 10) <<< 4) ||| BitVec.ofNat 8 (v % 10)

/-- The hour digit pair of the 12-hour form: hour 0 and hour 12 are both written 12 (R113). -/
def hour12 (h : Nat) : Nat := if h % 12 = 0 then 12 else h % 12

/-- `encHour(h, mode12)`, the hours register's value for hour h (R113). -/
def encHour (h : Nat) (mode12 : Bool) : Byte :=
  if mode12 then 0x40#8 ||| pmMask (decide (12 ≤ h)) ||| dec2bcd (hour12 h) else dec2bcd h

/-- `decHour(b, mode12)`, the hour an hours byte stands for (R114). -/
def decHour (b : Byte) (mode12 : Bool) : Nat :=
  if mode12 then bcd2dec (b &&& 0x1F#8) % 12 + (if pmBit b then 12 else 0) else bcd2dec (b &&& 0x3F#8)

/-- `secByte(halt, s)` (R108). -/
def encSecond (halt : Bool) (s : Nat) : Byte := haltMask halt ||| dec2bcd s

/-- The seconds digits, the halt bit masked out (R108). -/
def decSecond (b : Byte) : Nat := bcd2dec (b &&& 0x7F#8)

/-- The minutes digits (R109). -/
def decMinute (b : Byte) : Nat := bcd2dec (b &&& 0x7F#8)

/-- The day of the month (R117). -/
def decDate (b : Byte) : Nat := bcd2dec (b &&& 0x3F#8)

/-- The month (R117). -/
def decMonth (b : Byte) : Nat := bcd2dec (b &&& 0x1F#8)

/-- The calendar year, no mask, the century fixed (R118). -/
def decYear (b : Byte) : Nat := centuryBase + bcd2dec b

/-- The pointer a pointer byte loads, `v mod 64` (R77, R162). -/
def pointerOf (v : Byte) : Ptr := Fin.ofNat 64 v.toNat

end Sys2Proof.Machine
end

