-- ==== Sys2Proof/Machine/Calendar.lean ====
section
/-! DEFINITION. The calendar of the RTC (42_rtc.md R181 to R185): day numbers and dates of the proleptic Gregorian
calendar, and the seven time registers of a wall instant. On `Int`, `/` and `%` by a positive number are the `div`
and `mod` of 00_scope.md R14. -/

namespace Sys2Proof.Machine

/-- A date: year, month 1..12, day of month. -/
structure Civil where
  year  : Int
  month : Int
  day   : Int
  deriving DecidableEq, Repr

/-- `civilFromDays(z)`, the date of day number z, z = 0 being 1970-01-01 (R182). -/
def civilFromDays (days : Int) : Civil :=
  let z := days + 719468
  let era := z / 146097
  let doe := z - era * 146097
  let yoe := (doe - doe / 1460 + doe / 36524 - doe / 146096) / 365
  let doy := doe - (365 * yoe + yoe / 4 - yoe / 100)
  let mp := (5 * doy + 2) / 153
  let d := doy - (153 * mp + 2) / 5 + 1
  let m := if mp < 10 then mp + 3 else mp - 9
  let y := yoe + era * 400
  ⟨if m ≤ 2 then y + 1 else y, m, d⟩

/-- `daysFromCivil(y, m, d)`, the day number of a date, for every integer d (R183). -/
def daysFromCivil (year month day : Int) : Int :=
  let y := if month ≤ 2 then year - 1 else year
  let era := y / 400
  let yoe := y - era * 400
  let mp := if month > 2 then month - 3 else month + 9
  let doy := (153 * mp + 2) / 5 + day - 1
  let doe := yoe * 365 + yoe / 4 - yoe / 100 + doy
  era * 146097 + doe - 719468

/-- `weekday(z)`, 1 = Sunday to 7 = Saturday (R184). -/
def weekday (z : Int) : Int := (z + 4) % 7 + 1

/-- The whole seconds of a wall instant, the sub-second part dropped (R185). -/
def wholeSeconds (inst : Millis) : Int := (inst / 1000).floor

/-- The day number of a wall instant (R185). -/
def dayOf (inst : Millis) : Int := wholeSeconds inst / 86400

/-- The second of the day of a wall instant, 0..86399 (R185). -/
def secondOfDay (inst : Millis) : Nat := (wholeSeconds inst % 86400).toNat

/-- The seven time registers of a wall instant, in the order of their offsets (R185). -/
def timeBytes (halted mode12 : Bool) (inst : Millis) : Vector Byte 7 :=
  let z := dayOf inst
  let sod := secondOfDay inst
  let date := civilFromDays z
  #v[encSecond halted (sod % 60),
     dec2bcd (sod % 3600 / 60),
     encHour (sod / 3600) mode12,
     BitVec.ofInt 8 (weekday z),
     dec2bcd date.day.toNat,
     dec2bcd date.month.toNat,
     dec2bcd (date.year % 100).toNat]

/-- A register file with its offsets 0x00..0x06 replaced; "Offsets 0x07..0x3F are not written" (R185). -/
def writeTimeBytes (regs : Vector Byte 64) (b : Vector Byte 7) : Vector Byte 64 :=
  ((((((regs.set regSeconds b[0]).set regMinutes b[1]).set regHours b[2]).set regWeekday b[3]).set
    regDate b[4]).set regMonth b[5]).set regYear b[6]

/-- The register file before the time is materialized at construction: the control byte and the scratch bytes at their
parameters (R271), the time registers about to be written. -/
def blankRegs (control : Byte) (scratch : Nat → Byte) : Vector Byte 64 :=
  Vector.ofFn fun p => if p.val < 7 then 0#8 else if p.val = 7 then control else scratch p.val

end Sys2Proof.Machine
end

