-- ==== Sys2Proof/Machine/Records.lean ====
section
/-! DEFINITION. The records the state is made of (10_state.md R30 to R43), the responses of the operations (R49) and
the host port (30_encoding.md R102). All plain data. -/

namespace Sys2Proof.Machine

/-- The errors that end the construction of a circuit (60_exceptions.md R241). -/
inductive ConfigError where
  /-- `register` at an address already bound -/
  | dupAddr
  /-- `register` with an integer address outside 0..127 -/
  | addrRange
  deriving DecidableEq, Repr

/-- The reasons of the block's sticky refusal mark (60_exceptions.md R246). The mark is state of the spec: an
operation that sets it has a next state. -/
inductive RefusalReason where
  /-- a command word that matches no row of the opcode table -/
  | illegalWord
  /-- a handle with `devices[h] = none` -/
  | unknownHandle
  /-- an operation reaching a device variant other than the RTC -/
  | unmodelledDevice
  /-- `register` after steady-state operation began -/
  | lateRegister
  deriving DecidableEq, Repr

/-- The state of one RTC (R34). -/
structure RtcState where
  /-- the configured bus identity, never written after construction (R41) -/
  addr       : Addr7
  /-- the register file, 64 bytes (R35) -/
  regs       : Vector Byte 64
  /-- the register pointer (R36) -/
  ptr        : Ptr
  /-- the pointer byte of this transaction is consumed (R37) -/
  ptrLoaded  : Bool
  /-- the time-source reading (ms) at the last (re)start (R38) -/
  refInstant : Millis
  /-- the wall instant (ms) the clock showed at `refInstant` (R38) -/
  refWall    : Millis
  /-- clock halt (R39) -/
  halted     : Bool
  /-- hour mode, true = 12-hour (R40) -/
  mode12     : Bool
  deriving DecidableEq, Repr

/-- A device of the arena (R33). Of a chip of another family the spec gives no state (DESIGN CHOICE, log 9). -/
inductive Device where
  | rtc (r : RtcState)
  | other
  deriving DecidableEq, Repr

/-- The Bus (R31, R32). -/
structure BusState where
  /-- one entry for each 7-bit address (R31) -/
  map      : Vector (Option Handle) 128
  /-- the device in the active transaction (R32) -/
  selected : Option Handle
  deriving DecidableEq, Repr

/-- The record of one tracked actuator (R43). -/
structure PwmRec where
  /-- the last reported pin level -/
  lastLevel : Bool
  /-- the time of the last rising edge, none when no rising edge is recorded -/
  start     : Option Micros
  /-- the output angle, 0..180 -/
  angle     : Rat
  deriving DecidableEq, Repr

/-- The tracked actuators (R42): one record for each identifier, in the order of their creation; an identifier not
listed is untracked (DESIGN CHOICE, log 9). -/
abbrev PwmMap (Ident : Type := ActuatorId) := List (Ident × PwmRec)

/-- The state of one circuit (R30), "and nothing else of the block is state", for a type of actuator identifiers
(R11). -/
structure Block (Ident : Type := ActuatorId) where
  /-- the configuration error that ended construction (R241) -/
  cfgError  : Option ConfigError
  /-- the sticky refusal mark (R246) -/
  refused   : Option RefusalReason
  /-- false until the first operation other than bus.register (R270) -/
  setupDone : Bool
  bus       : BusState
  /-- the device arena: handle h is the entry number h, in construction order (R33, R270; DEDUCED, log 9) -/
  devices   : List Device
  pwm       : PwmMap Ident
  deriving DecidableEq, Repr

/-- The decoded date and time and the halted flag (42_rtc.md R189, R194). -/
structure DateFields where
  second  : Nat
  minute  : Nat
  hour    : Nat
  weekday : Nat
  date    : Nat
  month   : Nat
  year    : Nat
  halted  : Bool
  deriving DecidableEq, Repr

/-- The response of an operation: "an acknowledgement `Bool`, a `Byte`, a date-time record, or nothing" (R49). -/
inductive Response where
  | ack (accepted : Bool)
  | byte (value : Byte)
  | dateTime (fields : DateFields)
  /-- the operation completed and returns nothing -/
  | unit
  deriving DecidableEq, Repr

/-- The side operands beside a command word (30_encoding.md R102). An operation ignores those its rule does not read. -/
structure SideOperands (Ident : Type := ActuatorId) where
  /-- the handle of bus.register, dev.* and rtc.* -/
  h   : Handle
  /-- the RTC time-source reading (ms) of bus.*, dev.* and rtc.* -/
  t   : Millis
  /-- the wall instant (ms) of rtc.settime -/
  w   : Millis
  /-- the actuator of pwm.pin -/
  id  : Ident
  /-- the PWM time (µs) of pwm.pin -/
  now : Micros
  deriving DecidableEq, Repr

/-- One operation as the host issues it: the command word and its side operands (R100, R102). -/
structure HostOp (Ident : Type := ActuatorId) where
  word     : Word
  operands : SideOperands Ident
  deriving DecidableEq, Repr

/-- How an operation's rule can end other than by completing (00_scope.md R15). -/
inductive Stop where
  /-- `refuse(reason)` -/
  | refuse (reason : RefusalReason)
  /-- `raise ConfigError(code)` -/
  | raise (code : ConfigError)
  deriving DecidableEq, Repr

end Sys2Proof.Machine
end

