-- ==== Sys2Proof/Machine/Construct.lean ====
section
/-! DEFINITION. Construction, the block's only reset (70_reset_and_hazards.md R270 to R272). -/

namespace Sys2Proof.Machine

/-- An RTC right after its construction (R271). -/
def RtcState.construct (p : RtcParams) : RtcState where
  addr := p.addr
  regs := writeTimeBytes (blankRegs p.initControl p.initScratch) (timeBytes false false p.seedWall)
  ptr := 0
  ptrLoaded := false
  refInstant := p.t0Ms
  refWall := p.seedWall
  halted := false
  mode12 := false

/-- A device right after its construction (R270 step 2). -/
def Device.construct : DeviceSpec → Device
  | .rtc p => .rtc (RtcState.construct p)
  | .other => .other

/-- A circuit of the given devices after steps 1 and 2 of R270: every device constructed, handles in order, nothing
registered, no actuator tracked (R50, R272). -/
def Block.construct {Ident : Type} (devs : List DeviceSpec) : Block Ident where
  cfgError := none
  refused := none
  setupDone := false
  bus := ⟨Vector.replicate 128 none, none⟩
  devices := devs.map Device.construct
  pwm := []

end Sys2Proof.Machine
end

