-- ==== Sys2Proof/Machine/State.lean ====
section
/-! DEFINITION. The state of the machine: the block (10_state.md R30) and the host port through which the block is
driven (00_scope.md R3), the reasons a step can stop, and the state after reset. -/

namespace Sys2Proof.Machine

/-- The machine: one circuit and its host port. The port is the model's own: the block "executes no program: every
operation is issued by the host" (R44), so the operations the host has still to issue stand in `pending`, the side
operands of the one being executed in `operands`, and the responses given so far in `responses` (R259). The type of
the actuator identifiers is an argument (R11, log 5); `State` alone is the machine over `ActuatorId`. -/
structure State (Ident : Type := ActuatorId) where
  /-- the circuit (R30) -/
  block     : Block Ident
  /-- the operations the host has still to issue, the next one first (log 2) -/
  pending   : List (HostOp Ident)
  /-- the side operands of the operation being executed (R102, log 3) -/
  operands  : SideOperands Ident
  /-- the responses of the operations executed so far, the oldest first (R259, log 6) -/
  responses : List Response
  deriving DecidableEq, Repr

/-- The reasons a step can stop the machine. -/
inductive Fault where
  /-- Every operation raises it when `cfgError ≠ none`: "the circuit does not exist and no operation has a step"
  (R140, 93 I21 stuck). Safe: the spec gives no step there. -/
  | noCircuit
  deriving DecidableEq, Repr

/-- The reasons an instruction has no meaning in the model. -/
inductive Refusal where
  /-- An arm of `exec` that has no meaning yet raises it. Safe. No arm does. -/
  | notModelled (mnemonic : String)
  deriving DecidableEq, Repr

/-- What the port's operand latch holds before the first operation: the time annotations an unannotated first
operation takes (`T0_MS` and 0, R120), handle h0, wall instant 0, and the default actuator, which is a0 for
`ActuatorId`. DESIGN CHOICE, log 3. -/
def SideOperands.initial {Ident : Type} [Inhabited Ident] : SideOperands Ident := ⟨0, Config.t0Ms, 0, default, 0⟩

/-- A machine that has just constructed the circuit of the given devices, no operation issued yet. -/
def State.construct {Ident : Type} [Inhabited Ident] (devs : List DeviceSpec) : State Ident :=
  ⟨Block.construct devs, [], SideOperands.initial, []⟩

/-- The machine right after reset (R50, R270 to R272), with the circuit of log 1. -/
def State.reset : State := State.construct circuit

end Sys2Proof.Machine
end

