-- ==== Sys2Proof/Machine/Ops.lean ====
section
/-! DEFINITION. The named operations over the state that the meanings share: the RTC register file, the device arena
and its dispatch, the bus map, the actuator records, the ends an operation can have (respond, refuse, raise), the
preconditions of every operation, the fetch of the next host operation, and the times one carries. -/

namespace Sys2Proof.Machine

variable {Ident : Type}

/-- What one operation of the machine answers. -/
abbrev Result (Ident : Type := ActuatorId) := Host.Outcome (State Ident) Fault Refusal

/-- `MemRead(addr, 1)`: one byte of an RTC's register file (00_scope.md R15, 20_memory.md R74). -/
def RtcState.read (r : RtcState) (p : Ptr) : Byte := r.regs[p]

/-- `MemWrite(addr, 1, v)`: stored verbatim, whole byte (R15, R74). -/
def RtcState.write (r : RtcState) (p : Ptr) (v : Byte) : RtcState := { r with regs := r.regs.set p v }

/-- `ptr <- (ptr + 1) mod 64` (R77, R163, R164). -/
def RtcState.advance (r : RtcState) : RtcState := { r with ptr := r.ptr + 1 }

/-- `devices[h]` (R33). -/
def Block.device (b : Block Ident) (h : Handle) : Option Device := b.devices[h]?

/-- `devices[h] <- some d`, for a handle that exists (R33). -/
def Block.setDevice (b : Block Ident) (h : Handle) (d : Device) : Block Ident := { b with devices := b.devices.set h d }

/-- `bus.map[a]` (R31). -/
def Block.bound (b : Block Ident) (a : Addr7) : Option Handle := b.bus.map[a]

/-- `bus.map[a] <- some h` (R31). -/
def Block.bind (b : Block Ident) (a : Addr7) (h : Handle) : Block Ident :=
  { b with bus := { b.bus with map := b.bus.map.set a (some h) } }

/-- `bus.selected <- x` (R32). -/
def Block.select (b : Block Ident) (x : Option Handle) : Block Ident := { b with bus := { b.bus with selected := x } }

/-- Dispatch of a device operation (40_bus.md R147): on an RTC its rule is applied to it, on any other device the
operation is refused, as is one on a handle without a device. -/
def Block.onDevice {α : Type} (b : Block Ident) (h : Handle) (rule : RtcState → RtcState × α) :
    Except Stop (Block Ident × α) :=
  match b.device h with
  | none => .error (.refuse .unknownHandle)
  | some .other => .error (.refuse .unmodelledDevice)
  | some (.rtc r) => .ok (b.setDevice h (.rtc (rule r).1), (rule r).2)

/-- `pwm[id]` (R42). -/
def PwmMap.find [DecidableEq Ident] (id : Ident) : PwmMap Ident → Option PwmRec
  | [] => none
  | (k, r) :: rest => if id = k then some r else PwmMap.find id rest

/-- `pwm[id] <- some r`: the record that is there is replaced, a new one stands last (R42). -/
def PwmMap.put [DecidableEq Ident] (id : Ident) (r : PwmRec) : PwmMap Ident → PwmMap Ident
  | [] => [(id, r)]
  | (k, q) :: rest => if id = k then (id, r) :: rest else (k, q) :: PwmMap.put id r rest

/-- The form of the actuator records: no identifier twice (R73). -/
def PwmMap.wf [DecidableEq Ident] (m : PwmMap Ident) : Bool := decide (m.map Prod.fst).Nodup

/-- The number of a configuration error (60_exceptions.md R241). -/
def ConfigError.number : ConfigError → Nat
  | .dupAddr => 1
  | .addrRange => 2

/-- The number of a refusal reason (60_exceptions.md R246). -/
def RefusalReason.number : RefusalReason → Nat
  | .illegalWord => 0x10
  | .unknownHandle => 0x11
  | .unmodelledDevice => 0x12
  | .lateRegister => 0x13

/-- `refuse(reason)`: "sets `refused <- some reason` and changes nothing else" (R246). -/
def State.refuse (s : State Ident) (q : RefusalReason) : State Ident :=
  { s with block := { s.block with refused := some q } }

/-- `raise ConfigError(code)`: "sets `cfgError <- some code` and ends construction" (R241). -/
def State.raise (s : State Ident) (c : ConfigError) : State Ident :=
  { s with block := { s.block with cfgError := some c } }

/-- The operation completes with its response (R240), which joins the responses given so far (DEDUCED, log 6). -/
def State.complete (s : State Ident) (b : Block Ident) (r : Response) : State Ident :=
  { s with block := b, responses := s.responses ++ [r] }

/-- The end of an operation: complete, refused or raised. A refused operation has no effect at all (R250), so the
block it started from is kept, also where its rule had already disconnected a device. DEDUCED, log 7. -/
def State.finish (s : State Ident) : Except Stop (Block Ident × Response) → State Ident
  | .ok (b, r) => s.complete b r
  | .error (.refuse q) => s.refuse q
  | .error (.raise c) => s.raise c

/-- The first operation other than bus.register "sets `setupDone <- true` before its own rule applies" (R270). -/
def State.enterSteady (s : State Ident) : State Ident := { s with block := { s.block with setupDone := true } }

/-- The preconditions of every operation (R140, the order of R248): without a circuit no operation has a step, and
after a refusal an operation changes nothing and has no response. -/
def State.precheck (s : State Ident) (go : Result Ident) : Result Ident :=
  match s.block.cfgError with
  | some _ => .fault .noCircuit
  | none =>
    match s.block.refused with
    | some _ => .next s
    | none => go

/-- An operation of the setup phase, `bus.register`. -/
def State.setup (s : State Ident) (rule : Block Ident → Except Stop (Block Ident × Response)) : Result Ident :=
  s.precheck (.next (s.finish (rule s.block)))

/-- An operation of any other kind. -/
def State.steady (s : State Ident) (rule : Block Ident → Except Stop (Block Ident × Response)) : Result Ident :=
  s.precheck (.next (s.enterSteady.finish (rule s.enterSteady.block)))

/-- The operation is taken off the host port and its side operands stand on it. -/
def State.take (s : State Ident) (op : HostOp Ident) (rest : List (HostOp Ident)) : State Ident :=
  { s with pending := rest, operands := op.operands }

/-- One step with a given execution of instructions. With nothing pending the block, which acts only on operations,
stays as it is (R180, R259; log 2). A word that is no operation is refused, after the preconditions and before any
check of an operation (R105, R248); it is no operation, so the setup phase goes on (DEDUCED, log 8). -/
def State.runNext (execute : Instr → State Ident → Result Ident) (s : State Ident) : Result Ident :=
  match s.pending with
  | [] => .next s
  | op :: rest =>
    match decode op.word with
    | .ok i => execute i (s.take op rest)
    | .error _ => (s.take op rest).precheck (.next ((s.take op rest).refuse .illegalWord))

/-- The operation carries an RTC time `t`: every bus.*, dev.* and rtc.* operation does (R102). -/
def carriesT : Instr → Bool
  | .busRegister _ | .busBegin _ _ | .busWrite _ | .busRead _ | .busEnd | .devTryconnect _ _ | .devReceive _
  | .devProduce _ | .devDisconnect | .rtcQuery | .rtcSettime => true
  | .pwmPin _ | .pwmResetall => false

/-- The operation carries a PWM time `now`: pwm.pin alone does (R102). -/
def carriesNow : Instr → Bool
  | .pwmPin _ => true
  | .busRegister _ | .busBegin _ _ | .busWrite _ | .busRead _ | .busEnd | .devTryconnect _ _ | .devReceive _
  | .devProduce _ | .devDisconnect | .rtcQuery | .rtcSettime | .pwmResetall => false

/-- The RTC time a host operation carries; none where it carries none, and of a word that is no operation. -/
def HostOp.carriedT (op : HostOp Ident) : Option Millis :=
  match decode op.word with
  | .ok i => if carriesT i then some op.operands.t else none
  | .error _ => none

/-- The PWM time a host operation carries; none where it carries none, and of a word that is no operation. -/
def HostOp.carriedNow (op : HostOp Ident) : Option Micros :=
  match decode op.word with
  | .ok i => if carriesNow i then some op.operands.now else none
  | .error _ => none

/-- The word put on the host port as the next operation, with the side operands that stand there. -/
def State.present (s : State Ident) (w : Word) : State Ident := { s with pending := ⟨w, s.operands⟩ :: s.pending }

/-- The host lines up further operations behind those still pending. -/
def State.issue (s : State Ident) (ops : List (HostOp Ident)) : State Ident := { s with pending := s.pending ++ ops }

end Sys2Proof.Machine
end

