-- ==== Sys2Proof/Machine/Rtc.lean ====
section
/-! DEFINITION. The RTC: lazy time derivation, the write side effects, and the meanings of the query and the setter
(42_rtc.md R180 to R200). -/

namespace Sys2Proof.Machine

variable {Ident : Type}

/-- `materialize(r, I)`: the seven time registers written from a wall instant (R185). -/
def RtcState.materialize (r : RtcState) (inst : Millis) : RtcState :=
  { r with regs := writeTimeBytes r.regs (timeBytes r.halted r.mode12 inst) }

/-- The wall instant a running clock shows at time t, `refWall + (t - refInstant)` (R186). -/
def RtcState.instantAt (r : RtcState) (t : Millis) : Millis := r.refWall + (t - r.refInstant)

/-- `derive(r, t)`: nothing while halted, else the time registers are materialized (R186). -/
def RtcState.derive (r : RtcState) (t : Millis) : RtcState :=
  if r.halted then r else r.materialize (r.instantAt t)

/-- `decodeFields(r)` (R189). -/
def RtcState.decodeFields (r : RtcState) : DateFields where
  second := decSecond (r.read regSeconds)
  minute := decMinute (r.read regMinutes)
  hour := decHour (r.read regHours) r.mode12
  weekday := (r.read regWeekday).toNat
  date := decDate (r.read regDate)
  month := decMonth (r.read regMonth)
  year := decYear (r.read regYear)
  halted := r.halted

/-- The wall instant of decoded fields, out-of-range amounts carried into the next larger unit; the weekday is ignored
(R188). -/
def DateFields.instant (f : DateFields) : Millis :=
  let y : Int := f.year + ((f.month : Int) - 1) / 12
  let m : Int := ((f.month : Int) - 1) % 12 + 1
  let z : Int := daysFromCivil y m 1 + ((f.date : Int) - 1)
  (((z * 86400 + f.hour * 3600 + f.minute * 60 + f.second) * 1000 : Int) : Rat)

/-- `instantOfRegs(r)` (R188). -/
def RtcState.instantOfRegs (r : RtcState) : Millis := r.decodeFields.instant

/-- `resync(r, t)`, the run restart (R191). -/
def RtcState.resync (r : RtcState) (t : Millis) : RtcState :=
  { r with refWall := r.instantOfRegs, refInstant := t }

/-- `secondsWrite(r, v, t)` (R190): bit 7 set halts; bit 7 clear runs and restarts the clock. -/
def RtcState.secondsWrite (r : RtcState) (v : Byte) (t : Millis) : RtcState :=
  if haltBit v then { r with halted := true } else { r with halted := false }.resync t

/-- `hoursWrite(r, v)` (R192). -/
def RtcState.hoursWrite (r : RtcState) (v : Byte) : RtcState := { r with mode12 := modeBit v }

/-- `writeSideEffect(r, p, v, t)` (41_device_contract.md R167; R193). -/
def RtcState.writeSideEffect (r : RtcState) (p : Ptr) (v : Byte) (t : Millis) : RtcState :=
  if p = regSeconds then r.secondsWrite v t
  else if p = regHours then r.hoursWrite v
  else r

/-- The query's rule (R194). -/
def RtcState.query (t : Millis) (r : RtcState) : RtcState × Response :=
  (r.derive t, .dateTime (r.derive t).decodeFields)

/-- The setter's rule (R195). -/
def RtcState.settime (t w : Millis) (r : RtcState) : RtcState × Response :=
  ({ r with refWall := w, refInstant := t }.materialize w, .unit)

/-- `rtc.query` (R194). -/
def execRtcQuery (s : State Ident) : Result Ident :=
  s.steady fun b => b.onDevice s.operands.h (RtcState.query s.operands.t)

/-- `rtc.settime` (R195). -/
def execRtcSettime (s : State Ident) : Result Ident :=
  s.steady fun b => b.onDevice s.operands.h (RtcState.settime s.operands.t s.operands.w)

end Sys2Proof.Machine
end

