-- ==== Sys2Proof/Machine/Device.lean ====
section
/-! DEFINITION. The BusDevice contract as the RTC implements it, and the meanings of the direct device port
(41_device_contract.md R160 to R171). The Bus reaches the same rules (R160). -/

namespace Sys2Proof.Machine

variable {Ident : Type}

/-- `tryConnect(address, isWrite)`: acknowledges its own address and expects a pointer byte next; the direction is
ignored (R161). -/
def RtcState.tryConnect (a : Addr7) (_isWrite : Bool) (r : RtcState) : RtcState × Bool :=
  if a = r.addr then ({ r with ptrLoaded := false }, true) else (r, false)

/-- `receiveByte(value)`: the pointer byte, or a data byte with its side effect, then the pointer's advance (R162,
R163). The RTC always acknowledges (R170). -/
def RtcState.receiveByte (v : Byte) (t : Millis) (r : RtcState) : RtcState × Bool :=
  if r.ptrLoaded then (((r.write r.ptr v).writeSideEffect r.ptr v t).advance, true)
  else ({ r with ptr := pointerOf v, ptrLoaded := true }, true)

/-- `produceByte(willAck)`: derive, take the byte at the pointer, advance only when it will be acknowledged
(R164, R165). -/
def RtcState.produceByte (willAck : Bool) (t : Millis) (r : RtcState) : RtcState × Byte :=
  (if willAck then (r.derive t).advance else r.derive t, (r.derive t).read r.ptr)

/-- `disconnect()`: the next connection starts a fresh pointer-then-data sequence; the pointer is kept (R166). -/
def RtcState.disconnect (r : RtcState) : RtcState × Unit := ({ r with ptrLoaded := false }, ())

/-- A device's answer as the response of an operation. -/
def answer {α : Type} (wrap : α → Response) :
    Except Stop (Block Ident × α) → Except Stop (Block Ident × Response)
  | .ok (b, x) => .ok (b, wrap x)
  | .error e => .error e

/-- `dev.tryconnect` (R161). -/
def execDevTryconnect (a : Addr7) (isWrite : Bool) (s : State Ident) : Result Ident :=
  s.steady fun b => answer .ack (b.onDevice s.operands.h (RtcState.tryConnect a isWrite))

/-- `dev.receive` (R162). -/
def execDevReceive (v : Byte) (s : State Ident) : Result Ident :=
  s.steady fun b => answer .ack (b.onDevice s.operands.h (RtcState.receiveByte v s.operands.t))

/-- `dev.produce` (R165). -/
def execDevProduce (willAck : Bool) (s : State Ident) : Result Ident :=
  s.steady fun b => answer .byte (b.onDevice s.operands.h (RtcState.produceByte willAck s.operands.t))

/-- `dev.disconnect` (R166). -/
def execDevDisconnect (s : State Ident) : Result Ident :=
  s.steady fun b => answer (fun _ => .unit) (b.onDevice s.operands.h RtcState.disconnect)

end Sys2Proof.Machine
end

