-- ==== Sys2Proof/Machine/Bus.lean ====
section
/-! DEFINITION. The Bus: the address map, the selection, and the meanings of the bus operations (40_bus.md R140 to
R149). -/

namespace Sys2Proof.Machine

variable {Ident : Type}

/-- The address of an integer, none outside 0..127 (R141). -/
def busAddr (a : Int) : Option Addr7 := if a < 0 ∨ 127 < a then none else some (Fin.ofNat 128 a.toNat)

/-- The rule of `bus.register`, its checks in the order of R248 (R141). -/
def Block.register (b : Block Ident) (a : Int) (h : Handle) : Except Stop (Block Ident × Response) :=
  if b.setupDone then .error (.refuse .lateRegister)
  else
    match busAddr a with
    | none => .error (.raise .addrRange)
    | some x =>
      match b.bound x with
      | some _ => .error (.raise .dupAddr)
      | none =>
        match b.device h with
        | none => .error (.refuse .unknownHandle)
        | some _ => .ok (b.bind x h, .unit)

/-- The selected device, if any, is disconnected and nothing stays selected (R142, R145). -/
def Block.release (b : Block Ident) : Except Stop (Block Ident) :=
  match b.bus.selected with
  | none => .ok b
  | some h =>
    match b.onDevice h RtcState.disconnect with
    | .error e => .error e
    | .ok (b', _) => .ok (b'.select none)

/-- The look-up of a START, after the previous device is released: a miss or a device's NACK selects nothing (R142,
R243). -/
def Block.connect (b : Block Ident) (a : Addr7) (isWrite : Bool) : Except Stop (Block Ident × Response) :=
  match b.bound a with
  | none => .ok (b, .ack false)
  | some h =>
    match b.onDevice h (RtcState.tryConnect a isWrite) with
    | .error e => .error e
    | .ok (b', true) => .ok (b'.select (some h), .ack true)
    | .ok (b', false) => .ok (b', .ack false)

/-- The rule of `bus.begin` (R142): "the disconnect of the previously selected device happens before the look-up of
the new address" (R248). -/
def Block.startTransaction (b : Block Ident) (a : Addr7) (isWrite : Bool) : Except Stop (Block Ident × Response) :=
  match b.release with
  | .error e => .error e
  | .ok b' => b'.connect a isWrite

/-- The rule of `bus.write`: forwarded to the selected device, whose acknowledgement is returned unchanged; NACK with
nothing selected (R143, R170). -/
def Block.writeByte (b : Block Ident) (v : Byte) (t : Millis) : Except Stop (Block Ident × Response) :=
  match b.bus.selected with
  | none => .ok (b, .ack false)
  | some h => answer .ack (b.onDevice h (RtcState.receiveByte v t))

/-- The rule of `bus.read`: forwarded to the selected device; `IDLE_READ` with nothing selected (R144). -/
def Block.readByte (b : Block Ident) (ack : Bool) (t : Millis) : Except Stop (Block Ident × Response) :=
  match b.bus.selected with
  | none => .ok (b, .byte Config.idleRead)
  | some h => answer .byte (b.onDevice h (RtcState.produceByte ack t))

/-- The rule of `bus.end` (R145). -/
def Block.endTransaction (b : Block Ident) : Except Stop (Block Ident × Response) :=
  match b.release with
  | .error e => .error e
  | .ok b' => .ok (b', .unit)

/-- `bus.register` (R141). -/
def execBusRegister (a : Int) (s : State Ident) : Result Ident := s.setup fun b => b.register a s.operands.h

/-- `bus.begin` (R142). -/
def execBusBegin (a : Addr7) (isWrite : Bool) (s : State Ident) : Result Ident :=
  s.steady fun b => b.startTransaction a isWrite

/-- `bus.write` (R143). -/
def execBusWrite (v : Byte) (s : State Ident) : Result Ident := s.steady fun b => b.writeByte v s.operands.t

/-- `bus.read` (R144). -/
def execBusRead (ack : Bool) (s : State Ident) : Result Ident := s.steady fun b => b.readByte ack s.operands.t

/-- `bus.end` (R145). -/
def execBusEnd (s : State Ident) : Result Ident := s.steady fun b => b.endTransaction

end Sys2Proof.Machine
end

