-- ==== Sys2Proof/Machine/Pwm.lean ====
section
/-! DEFINITION. The PWM decoder and the meanings of its two operations (43_pwm.md R220 to R229). -/

namespace Sys2Proof.Machine

variable {Ident : Type}

/-- `clamp(v, lo, hi) = min(max(v, lo), hi)` (00_scope.md R14). -/
def clamp (v lo hi : Rat) : Rat := min (max v lo) hi

/-- `pwmAngle(width)`, exact (R222). -/
def pwmAngle (width : Micros) : Rat := clamp ((width - pwmZeroWidth) / pwmSpan * pwmFullAngle) 0 pwmFullAngle

/-- The window, both bounds inclusive (R223). -/
def validWidth (width : Micros) : Bool := decide (pwmMinWidth ≤ width ∧ width ≤ pwmMaxWidth)

/-- The record of an actuator at its first event (R221). -/
def PwmRec.fresh : PwmRec := ⟨false, none, Config.pwmInitAngle⟩

/-- The record of an actuator, created if there is none yet (R221). -/
def PwmMap.track [DecidableEq Ident] (m : PwmMap Ident) (id : Ident) : PwmRec := (m.find id).getD PwmRec.fresh

/-- The angle after a falling edge: the width's, when there is a width and it is valid, else the previous one (R223,
R224). A high level without a recorded rising edge, which R43 rules out, has no width: the angle stays (DESIGN CHOICE,
log 11). -/
def PwmRec.angleAtFall (r : PwmRec) (now : Micros) : Rat :=
  match r.start with
  | none => r.angle
  | some s0 => if validWidth (now - s0) then pwmAngle (now - s0) else r.angle

/-- One pin report against the actuator's record (R224): rising edge, falling edge, or no edge. -/
def PwmRec.report (r : PwmRec) (level : Bool) (now : Micros) : PwmRec :=
  match level, r.lastLevel with
  | true, false => { r with start := some now, lastLevel := true }
  | false, true => { r with lastLevel := false, angle := r.angleAtFall now }
  | true, true => r
  | false, false => r

/-- A tracked record after `resetAll` (R225). -/
def PwmRec.neutral (_r : PwmRec) : PwmRec := ⟨false, none, pwmNeutral⟩

/-- The rule of `pwm.pin` (R224). -/
def Block.pinLevel [DecidableEq Ident] (b : Block Ident) (id : Ident) (level : Bool) (now : Micros) : Block Ident :=
  { b with pwm := PwmMap.put id ((PwmMap.track b.pwm id).report level now) b.pwm }

/-- The rule of `pwm.resetall`: every tracked record, none created or removed (R225). -/
def Block.resetAll (b : Block Ident) : Block Ident := { b with pwm := b.pwm.map fun e => (e.1, e.2.neutral) }

/-- `angleOut(id)`, the published output (R226). -/
def Block.angleOut [DecidableEq Ident] (b : Block Ident) (id : Ident) : Option Rat :=
  (PwmMap.find id b.pwm).map PwmRec.angle

/-- `pwm.pin` (R224). -/
def execPwmPin [DecidableEq Ident] (level : Bool) (s : State Ident) : Result Ident :=
  s.steady fun b => .ok (b.pinLevel s.operands.id level s.operands.now, .unit)

/-- `pwm.resetall` (R225). -/
def execPwmResetall (s : State Ident) : Result Ident := s.steady fun b => .ok (b.resetAll, .unit)

end Sys2Proof.Machine
end

