-- ==== Sys2Proof/Machine/Dispatch.lean ====
section
/-! DEFINITION. The meaning of every operation, one arm for each row of the opcode table (30_encoding.md R103). -/

namespace Sys2Proof.Machine

/-- The execution of one operation, its side operands on the host port. -/
def exec (i : Instr) (s : State) : Host.Outcome State Fault Refusal :=
  match i with
  | .busRegister a => Sys2Proof.Machine.execBusRegister a s
  | .busBegin a isWrite => Sys2Proof.Machine.execBusBegin a isWrite s
  | .busWrite v => Sys2Proof.Machine.execBusWrite v s
  | .busRead ack => Sys2Proof.Machine.execBusRead ack s
  | .busEnd => Sys2Proof.Machine.execBusEnd s
  | .devTryconnect a isWrite => Sys2Proof.Machine.execDevTryconnect a isWrite s
  | .devReceive v => Sys2Proof.Machine.execDevReceive v s
  | .devProduce willAck => Sys2Proof.Machine.execDevProduce willAck s
  | .devDisconnect => Sys2Proof.Machine.execDevDisconnect s
  | .rtcQuery => Sys2Proof.Machine.execRtcQuery s
  | .rtcSettime => Sys2Proof.Machine.execRtcSettime s
  | .pwmPin level => Sys2Proof.Machine.execPwmPin level s
  | .pwmResetall => Sys2Proof.Machine.execPwmResetall s

end Sys2Proof.Machine
end

