-- ==== Sys2Proof/Machine/Step.lean ====
section
/-! DEFINITION. One step of the machine: the host's next operation is taken, decoded and executed. -/

namespace Sys2Proof.Machine

/-- One step (see `State.runNext`). -/
def step (s : State) : Host.Outcome State Fault Refusal := s.runNext exec

/-- The state whose very next step runs the operation of the given table word: it stands first on the host port, with
the side operands that stand there. A number that fits no command word changes nothing (DESIGN CHOICE,
log 17). -/
def State.withFetchWord (s : State) (nbits w : Nat) : State :=
  match tableWord nbits w with
  | none => s
  | some x => s.present x

end Sys2Proof.Machine
end

