-- ==== Sys2Proof/Machine/Asm.lean ====
section
/-! DEFINITION. The spec's own notation for a sequence of operations (30_encoding.md R120 to R122): lines with their
operands and time annotations, the pseudo-instructions with their expansions, the text of a line, and the assembling
of lines into the operations the host issues. Lines are data, not parsed text (DESIGN CHOICE, log 14). -/

namespace Sys2Proof.Machine

/-- "an exact decimal" (R120): `mantissa / 10 ^ places`. -/
structure Decimal where
  mantissa : Int
  places   : Nat
  deriving DecidableEq, Repr

/-- The number a decimal stands for. -/
def Decimal.value (d : Decimal) : Rat := (d.mantissa : Rat) / ((10 ^ d.places : Nat) : Rat)

/-- The sum of two decimals, written with the places of both. -/
def Decimal.plus (a b : Decimal) : Decimal :=
  ⟨a.mantissa * (10 ^ b.places : Nat) + b.mantissa * (10 ^ a.places : Nat), a.places + b.places⟩

/-- `n` in decimal digits, at least `width` of them. -/
def padded (width n : Nat) : String :=
  String.ofList (List.replicate (width - (Nat.repr n).length) '0') ++ Nat.repr n

/-- A decimal as text. -/
def Decimal.text (d : Decimal) : String :=
  let whole := d.mantissa.natAbs / 10 ^ d.places
  let frac := d.mantissa.natAbs % 10 ^ d.places
  (if d.mantissa < 0 then "-" else "") ++ Nat.repr whole ++
    (if d.places = 0 then "" else "." ++ padded d.places frac)

/-- An ISO date-time `YYYY-MM-DDThh:mm:ss` (R121). -/
structure IsoDateTime where
  year   : Nat
  month  : Nat
  day    : Nat
  hour   : Nat
  minute : Nat
  second : Nat
  deriving DecidableEq, Repr

/-- The fields are a date of the calendar and a time of its day: the date is one that its day number gives back (R182,
R183), and the year has four digits. The spec gives other fields no meaning; `assemble` then gives no operations (DESIGN
CHOICE, log 14). -/
def IsoDateTime.wf (d : IsoDateTime) : Bool :=
  decide (civilFromDays (daysFromCivil d.year d.month d.day) = ⟨d.year, d.month, d.day⟩) &&
    decide (d.year ≤ 9999 ∧ d.hour < 24 ∧ d.minute < 60 ∧ d.second < 60)

/-- The wall instant of a date-time, on the scale of R181. Of fields that are no date or time (`IsoDateTime.wf`) the
spec gives none: the value of this total function there, R183's formula outside its months 1..12 among others, is no
instant of theirs (DESIGN CHOICE, log 14). -/
def IsoDateTime.instant (d : IsoDateTime) : Millis :=
  (((daysFromCivil d.year d.month d.day * 86400 + d.hour * 3600 + d.minute * 60 + d.second) * 1000 : Int) : Rat)

/-- A date-time as text. -/
def IsoDateTime.text (d : IsoDateTime) : String :=
  padded 4 d.year ++ "-" ++ padded 2 d.month ++ "-" ++ padded 2 d.day ++ "T" ++
    padded 2 d.hour ++ ":" ++ padded 2 d.minute ++ ":" ++ padded 2 d.second

/-- The wall operand of `rtc.settime`: "a wall instant in ms, or an ISO date-time" (R121). -/
inductive WallOperand where
  | ms (d : Decimal)
  | iso (d : IsoDateTime)
  deriving DecidableEq, Repr

/-- The wall instant the operand stands for. -/
def WallOperand.value : WallOperand → Millis
  | .ms d => d.value
  | .iso d => d.instant

/-- The operand is an instant in ms, or a date-time that is one. -/
def WallOperand.wf : WallOperand → Bool
  | .ms _ => true
  | .iso d => d.wf

/-- The wall operand as text. -/
def WallOperand.text : WallOperand → String
  | .ms d => d.text
  | .iso d => d.text

/-- One line: an operation, the side operands its row of R121 writes, and its time annotation (R120). A side operand
that the row does not write keeps the default here; no operation reads one (R102; DESIGN CHOICE, log 14). -/
structure AsmLine where
  op : Instr
  /-- `h<k>` -/
  h  : Handle := 0
  /-- the wall operand of rtc.settime -/
  w  : WallOperand := .ms ⟨0, 0⟩
  /-- `a<k>` -/
  id : ActuatorId := 0
  /-- `@<q>ms`, gives t -/
  ms : Option Decimal := none
  /-- `@<q>us`, gives now -/
  us : Option Decimal := none
  deriving DecidableEq, Repr

/-- The direction operand `w` or `r` of R121. -/
def dirText (isWrite : Bool) : String := if isWrite then "w" else "r"

/-- The acknowledge operand `ack` or `nack` of R121. -/
def ackText (ack : Bool) : String := if ack then "ack" else "nack"

/-- The mnemonic and the operands of a line (R121), numbers in decimal. -/
def AsmLine.opText (l : AsmLine) : String :=
  let hk := "h" ++ Nat.repr l.h
  match l.op with
  | .busRegister a => "bus.register " ++ a.repr ++ ", " ++ hk
  | .busBegin a d => "bus.begin " ++ Nat.repr a.val ++ ", " ++ dirText d
  | .busWrite v => "bus.write " ++ Nat.repr v.toNat
  | .busRead k => "bus.read " ++ ackText k
  | .busEnd => "bus.end"
  | .devTryconnect a d => "dev.tryconnect " ++ hk ++ ", " ++ Nat.repr a.val ++ ", " ++ dirText d
  | .devReceive v => "dev.receive " ++ hk ++ ", " ++ Nat.repr v.toNat
  | .devProduce k => "dev.produce " ++ hk ++ ", " ++ ackText k
  | .devDisconnect => "dev.disconnect " ++ hk
  | .rtcQuery => "rtc.query " ++ hk
  | .rtcSettime => "rtc.settime " ++ hk ++ ", " ++ l.w.text
  | .pwmPin level => "pwm.pin a" ++ Nat.repr l.id ++ ", " ++ (if level then "1" else "0")
  | .pwmResetall => "pwm.resetall"

/-- The text of a line, `mnemonic operands [@time]` (R120). -/
def AsmLine.text (l : AsmLine) : String :=
  l.opText ++ (match l.ms with | none => "" | some q => " @" ++ q.text ++ "ms") ++
    (match l.us with | none => "" | some q => " @" ++ q.text ++ "us")

/-- The pseudo-instructions (R122). -/
inductive Pseudo where
  | i2cWrite (a : Addr7) (bytes : List Byte)
  | i2cSetptr (a : Addr7) (p : Byte)
  | i2cWritereg (a : Addr7) (p : Byte) (data : List Byte)
  | i2cRead (a : Addr7) (n : Nat)
  | i2cReadreg (a : Addr7) (p : Byte) (n : Nat)
  | pwmPulse (id : ActuatorId) (t0 width : Decimal)
  deriving DecidableEq, Repr

/-- The operands have the form of R122: `b0, …, bn` is at least one byte, and `n ≥ 1` bytes are read. R122 bounds the
data of i2c.writereg nowhere: with none it is i2c.setptr (DESIGN CHOICE, log 14). -/
def Pseudo.wf : Pseudo → Bool
  | .i2cWrite _ bytes => !bytes.isEmpty
  | .i2cSetptr _ _ => true
  | .i2cWritereg _ _ _ => true
  | .i2cRead _ n => decide (1 ≤ n)
  | .i2cReadreg _ _ n => decide (1 ≤ n)
  | .pwmPulse _ _ _ => true

/-- `(n − 1) × bus.read ack; bus.read nack`, for the n ≥ 1 of R122; no read for n = 0, which R122 rules out (DESIGN
CHOICE, log 14). -/
def readRun : Nat → List Instr
  | 0 => []
  | n + 1 => List.replicate n (.busRead true) ++ [.busRead false]

/-- The operations of a bus pseudo-instruction, in order (R122); the pulse has its own times and is below. Of operands
outside R122's form (`Pseudo.wf`) the spec gives no expansion: what this total function answers there is none, and
`assemble` gives no operations (DESIGN CHOICE, log 14). -/
def Pseudo.busOps : Pseudo → List Instr
  | .i2cWrite a bytes => .busBegin a true :: bytes.map .busWrite ++ [.busEnd]
  | .i2cSetptr a p => [.busBegin a true, .busWrite p, .busEnd]
  | .i2cWritereg a p data => .busBegin a true :: .busWrite p :: data.map .busWrite ++ [.busEnd]
  | .i2cRead a n => .busBegin a false :: readRun n ++ [.busEnd]
  | .i2cReadreg a p n => .busBegin a true :: .busWrite p :: .busBegin a false :: readRun n ++ [.busEnd]
  | .pwmPulse _ _ _ => []

/-- The lines a pseudo-instruction expands to, "all at the annotated time unless stated" (R122). A pulse expands to its
two lines as R122 writes them, each with its own `now`: an `@<q>ms` annotation on a `pwm.pulse` line goes to no line and
is not the last `t` given to later ones. The spec does not say whether it is (DESIGN CHOICE, log 14). -/
def Pseudo.expand (ms : Option Decimal) : Pseudo → List AsmLine
  | .pwmPulse id t0 width =>
    [{ op := .pwmPin true, id := id, us := some t0 }, { op := .pwmPin false, id := id, us := some (t0.plus width) }]
  | p => p.busOps.map fun i => { op := i, ms := ms }

/-- A line of a program: an operation, or a pseudo-instruction with its annotation `@<q>ms`. A pseudo-instruction takes
no `@<q>us` (DESIGN CHOICE, log 14). -/
inductive SourceLine where
  | op (l : AsmLine)
  | pseudo (p : Pseudo) (ms : Option Decimal)
  deriving DecidableEq, Repr

/-- The line has the form of R121 and R122, but for the word of its operation, which `wordOf` decides. -/
def SourceLine.wf : SourceLine → Bool
  | .op l => l.w.wf
  | .pseudo p _ => p.wf

/-- The lines of operations a program stands for, when each of its lines has its form. -/
def expandProgram : List SourceLine → List AsmLine
  | [] => []
  | .op l :: rest => l :: expandProgram rest
  | .pseudo p ms :: rest => p.expand ms ++ expandProgram rest

/-- The host operations of lines: "an operation without an annotation takes the last `t` (respectively `now`) given"
(R120). There are none where a line's operation has no command word (log 15). -/
def assembleFrom (t : Millis) (now : Micros) : List AsmLine → Option (List HostOp)
  | [] => some []
  | l :: rest =>
    let t' := (l.ms.map Decimal.value).getD t
    let now' := (l.us.map Decimal.value).getD now
    match wordOf l.op, assembleFrom t' now' rest with
    | some w, some ops => some (⟨w, ⟨l.h, t', l.w.value, l.id, now'⟩⟩ :: ops)
    | some _, none => none
    | none, _ => none

/-- The host operations of a program; the times given are "initially `T0_MS` (respectively 0)" (R120). There are none
where a line has not its form, which the spec gives no operations (DESIGN CHOICE, log 14). -/
def assemble (t0Ms : Millis) (program : List SourceLine) : Option (List HostOp) :=
  if program.all SourceLine.wf then assembleFrom t0Ms 0 (expandProgram program) else none

end Sys2Proof.Machine
end

