-- ==== Sys2Proof/Machine/Perform.lean ====
section
/-! DEFINITION. The machine over any type of actuator identifiers with decidable equality (00_scope.md R11): the
execution of an operation and the step. `exec` and `step` are these for `ActuatorId`. -/

namespace Sys2Proof.Machine

/-- The execution of one operation, for any type of identifiers. -/
def perform {Ident : Type} [DecidableEq Ident] (i : Instr) (s : State Ident) : Result Ident :=
  match i with
  | .busRegister a => execBusRegister a s
  | .busBegin a isWrite => execBusBegin a isWrite s
  | .busWrite v => execBusWrite v s
  | .busRead ack => execBusRead ack s
  | .busEnd => execBusEnd s
  | .devTryconnect a isWrite => execDevTryconnect a isWrite s
  | .devReceive v => execDevReceive v s
  | .devProduce willAck => execDevProduce willAck s
  | .devDisconnect => execDevDisconnect s
  | .rtcQuery => execRtcQuery s
  | .rtcSettime => execRtcSettime s
  | .pwmPin level => execPwmPin level s
  | .pwmResetall => execPwmResetall s

/-- One step, for any type of identifiers. -/
def performStep {Ident : Type} [DecidableEq Ident] (s : State Ident) : Result Ident := s.runNext perform

end Sys2Proof.Machine
end

