-- ==== Sys2Proof/Safety.lean ====
section
/-! DEFINITION. What claims about the machine are stated in: the invariants the spec gives the block, what of a run is
observed, what the host owes the block, and how an operation completes. -/

namespace Sys2Proof.Machine

variable {Ident : Type}

/-- `halted = regs[0x00][7]` (10_state.md R39) and `mode12 = regs[0x02][6]` (R40). -/
def RtcState.coherent (r : RtcState) : Bool :=
  r.halted == haltBit (r.read regSeconds) && r.mode12 == modeBit (r.read regHours)

/-- The invariant of a device: an RTC is coherent; of another chip nothing is known. -/
def Device.coherent : Device → Bool
  | .rtc r => r.coherent
  | .other => true

/-- The two invariants of an actuator's record (R43): a high level has a recorded rising edge, and the angle stays in
0..180. -/
def PwmRec.sound (r : PwmRec) : Bool :=
  (!r.lastLevel || r.start.isSome) && decide (0 ≤ r.angle ∧ r.angle ≤ 180)

/-- The selection invariant (40_bus.md R146): the selected device is an RTC, bound in `bus.map` at the address of the
START that selected it, which is its own. -/
def Block.selectionSound (b : Block Ident) : Prop :=
  match b.bus.selected with
  | none => True
  | some h =>
    match b.device h with
    | some (.rtc r) => b.bound r.addr = some h
    | some .other => False
    | none => False

/-- What holds of the block in every reachable state. -/
structure Block.Inv [DecidableEq Ident] (b : Block Ident) : Prop where
  /-- R39, R40 -/
  devices_coherent : ∀ d ∈ b.devices, d.coherent = true
  /-- every bound handle is a device (R141) -/
  bound_exists : ∀ a h, b.bound a = some h → (b.device h).isSome = true
  /-- R146 -/
  selection_sound : b.selectionSound
  /-- one record for each tracked actuator (R42) -/
  pwm_unique : PwmMap.wf b.pwm = true
  /-- R43 -/
  pwm_sound : ∀ e ∈ b.pwm, e.2.sound = true
  /-- before the first operation other than a registration nothing is selected and no actuator is tracked (R270) -/
  setup_idle : b.setupDone = false → b.bus.selected = none ∧ b.pwm = []

/-- The circuit exists and no operation has been refused, so the next operation's rule applies (R140). -/
def State.live (s : State Ident) : Prop := s.block.cfgError = none ∧ s.block.refused = none

/-- The operation completes: the machine goes on with the given block and the given response, and nothing else of the
machine changes. -/
def Completes (i : Instr) (s : State) (b : Block) (r : Response) : Prop :=
  exec i s = .next { s with block := b, responses := s.responses ++ [r] }

/-- The operation is refused and has no other effect: only the mark, and for an operation other than bus.register the
end of the setup phase (R246, R250, R270). -/
def Refuses (i : Instr) (s : State) (b : Block) (q : RefusalReason) : Prop :=
  exec i s = .next { s with block := { b with refused := some q } }

/-- `devices[h]` is the RTC r. -/
def Block.hasRtc (b : Block Ident) (h : Handle) (r : RtcState) : Prop := b.device h = some (.rtc r)

/-- The observation of a run: the responses, `angleOut`, the configuration error and the refusal mark (R49, R259). -/
structure Observation (Ident : Type := ActuatorId) where
  responses : List Response
  cfgError  : Option ConfigError
  refused   : Option RefusalReason
  /-- `angleOut` of each tracked actuator; of every other it is none -/
  angles    : List (Ident × Rat)
  deriving DecidableEq, Repr

/-- What is observed of a machine's run so far. "The observation of such a launch is the error alone" when the
circuit was never built (R241). -/
def State.observe (s : State Ident) : Observation Ident :=
  match s.block.cfgError with
  | some c => ⟨[], some c, none, []⟩
  | none => ⟨s.responses, none, s.block.refused, s.block.pwm.map fun e => (e.1, e.2.angle)⟩

/-- A good run: the circuit was built and nothing was refused (R246). -/
def State.good (s : State Ident) : Bool := s.block.cfgError.isNone && s.block.refused.isNone

/-- The two ways a device is driven (R160). -/
inductive Port where
  | bus
  | direct
  deriving DecidableEq, Repr

/-- The devices an operation drives, each with the port: the Bus drives the device it has selected and the one it looks
up for a START, the direct port the device of the handle (R160). The query and the setter are no port (R256), and a
registration drives no device. -/
def portsOf (i : Instr) (s : State Ident) : List (Handle × Port) :=
  match i with
  | .busBegin a _ => (s.block.bus.selected.toList ++ (s.block.bound a).toList).map fun h => (h, .bus)
  | .busWrite _ | .busRead _ | .busEnd => s.block.bus.selected.toList.map fun h => (h, .bus)
  | .devTryconnect _ _ | .devReceive _ | .devProduce _ | .devDisconnect => [(s.operands.h, .direct)]
  | .busRegister _ | .rtcQuery | .rtcSettime | .pwmPin _ | .pwmResetall => []

/-- The devices the next step drives: none where it has no operation, or one without a rule to apply (R140). -/
def portsNow (s : State Ident) : List (Handle × Port) :=
  match s.pending with
  | [] => []
  | op :: rest =>
    match decode op.word with
    | .error _ => []
    | .ok i => if s.block.cfgError.isNone && s.block.refused.isNone then portsOf i (s.take op rest) else []

/-- The devices driven in n steps, each with the port, as the Bus's map and selection stand at each step. -/
def driven : Nat → State → List (Handle × Port)
  | 0, _ => []
  | n + 1, s =>
    portsNow s ++
      match step s with
      | .next t => driven n t
      | .fault _ => []
      | .refused _ => []

/-- The times the host supplies do not decrease: the `t` of the operations that carry one, and the `now` of those that
carry one (R102, R258). An operand an operation does not carry is no time the host supplies. -/
def timesRise (ops : List (HostOp Ident)) : Prop :=
  (ops.filterMap HostOp.carriedT).Pairwise (· ≤ ·) ∧ (ops.filterMap HostOp.carriedNow).Pairwise (· ≤ ·)

/-- The times the host supplies come "each from the same cycle counter" (R258): at each operation the counter stands at
some count, which does not go back from one to the next, and a time the operation carries is that count's, by the
conversion of decision D4. The wording is the model's: DEDUCED, log 18. -/
def fromOneCounter (ops : List (HostOp Ident)) : Prop :=
  ∃ cycles : List Nat, cycles.Pairwise (· ≤ ·) ∧
    List.Forall₂ (fun op c => (∀ t, op.carriedT = some t → t = hostMillis c) ∧
      ∀ now, op.carriedNow = some now → now = hostMicros c) ops cycles

/-- The host's duty of R258 to "supply non-decreasing `t` and `now` across operations, each from the same cycle
counter". -/
def timeDuty (ops : List (HostOp Ident)) : Prop := timesRise ops ∧ fromOneCounter ops

/-- The host's duty of R258 to register every device before any other operation. -/
def registersFirst (ops : List Instr) : Prop :=
  ops.Pairwise fun i j => (∃ a, j = .busRegister a) → ∃ a, i = .busRegister a

/-- The host's duty of R160 and R258 "to drive a device through the Bus or through the direct device port, not both",
throughout the run of the operations lined up. The wording is the model's: DEDUCED, log 18. -/
def onePort (s : State) : Prop :=
  ∀ h, ¬ ((h, Port.bus) ∈ driven s.pending.length s ∧ (h, Port.direct) ∈ driven s.pending.length s)

end Sys2Proof.Machine
end

