-- ==== Sys2Proof/Certificates/Slice0/Obligations.lean ====
section
/-! DEFINITION. The statements about the machine, from the spec's numbered rules, and the few predicates they are
stated with. -/

open Sys2Proof Sys2Proof.Machine

/-! ## Predicates -/

/-- The block once steady-state operation has begun (R270 step 4). -/
def Claims.entered (s : State) : Block := { s.block with setupDone := true }

/-- The machine with other side operands on its host port. -/
def Claims.on (s : State) (o : SideOperands) : State := { s with operands := o }

/-- The RTC r' is what takes the place of `devices[h]`; nothing else of the block b changes. -/
def Claims.putRtc (b : Block) (h : Handle) (r' : RtcState) : Block := { b with devices := b.devices.set h (.rtc r') }

/-- What receiving the byte v at time t makes of an RTC (R162, R163, R167, R190 to R193). -/
def Claims.Received (r : RtcState) (v : Byte) (t : Millis) (r' : RtcState) : Prop :=
  (r.ptrLoaded = false →
    r'.ptr.val = v.toNat % 64 ∧ r'.ptrLoaded = true ∧ r'.regs = r.regs ∧ r'.addr = r.addr ∧
    r'.halted = r.halted ∧ r'.mode12 = r.mode12 ∧ r'.refWall = r.refWall ∧ r'.refInstant = r.refInstant) ∧
  (r.ptrLoaded = true →
    r'.ptr.val = (r.ptr.val + 1) % 64 ∧ r'.ptrLoaded = true ∧ r'.addr = r.addr ∧
    r'.regs[r.ptr] = v ∧ (∀ p : Ptr, p ≠ r.ptr → r'.regs[p] = r.regs[p]) ∧
    (r.ptr.val = 0x00 → v.getLsbD 7 = true →
      r'.halted = true ∧ r'.mode12 = r.mode12 ∧ r'.refWall = r.refWall ∧ r'.refInstant = r.refInstant) ∧
    (r.ptr.val = 0x00 → v.getLsbD 7 = false →
      r'.halted = false ∧ r'.mode12 = r.mode12 ∧ r'.refWall = r'.instantOfRegs ∧ r'.refInstant = t) ∧
    (r.ptr.val = 0x02 →
      r'.mode12 = v.getLsbD 6 ∧ r'.halted = r.halted ∧ r'.refWall = r.refWall ∧ r'.refInstant = r.refInstant) ∧
    (r.ptr.val ≠ 0x00 → r.ptr.val ≠ 0x02 →
      r'.mode12 = r.mode12 ∧ r'.halted = r.halted ∧ r'.refWall = r.refWall ∧ r'.refInstant = r.refInstant))

/-- What derivation at time t makes of an RTC (R186): nothing while halted; else offsets 0x00..0x06 are those of the
instant `refWall + (t - refInstant)`, and nothing else changes. -/
def Claims.Derived (r : RtcState) (t : Millis) (d : RtcState) : Prop :=
  (r.halted = true → d = r) ∧
  (r.halted = false →
    (∀ p : Fin 7, d.regs[p] = (timeBytes false r.mode12 (r.refWall + (t - r.refInstant)))[p]) ∧
    (∀ p : Ptr, 7 ≤ p.val → d.regs[p] = r.regs[p]) ∧ { d with regs := r.regs } = r)

/-- What producing a byte at time t makes of an RTC, and the byte (R165). -/
def Claims.Produced (r : RtcState) (willAck : Bool) (t : Millis) (r' : RtcState) (v : Byte) : Prop :=
  ∃ d, Claims.Derived r t d ∧ v = d.regs[r.ptr] ∧ { r' with ptr := r.ptr } = d ∧
    r'.ptr.val = if willAck then (r.ptr.val + 1) % 64 else r.ptr.val

/-- The block b with its selected RTC, if one is selected, disconnected and nothing selected (R142, R145). -/
def Claims.Released (b b' : Block) : Prop :=
  (b.bus.selected = none ∧ b' = b) ∨
  (∃ h r, b.bus.selected = some h ∧ b.hasRtc h r ∧
    b' = { Claims.putRtc b h { r with ptrLoaded := false } with bus := { b.bus with selected := none } })

/-- No RTC stands at the handle, and the reason an operation that reaches it is refused for (R147). -/
def Claims.NoRtc (b : Block) (h : Handle) (q : RefusalReason) : Prop :=
  (b.device h = none ∧ q = .unknownHandle) ∨ (b.device h = some .other ∧ q = .unmodelledDevice)

/-- The operation is one of the two of the PWM decoder. -/
def Claims.isPwm : Instr → Bool
  | .pwmPin _ | .pwmResetall => true
  | .busRegister _ | .busBegin _ _ | .busWrite _ | .busRead _ | .busEnd | .devTryconnect _ _ | .devReceive _
  | .devProduce _ | .devDisconnect | .rtcQuery | .rtcSettime => false

/-- The operation writes no register by the host's will: it is none of the byte writes and not the setter. -/
def Claims.readsOnly : Instr → Bool
  | .busWrite _ | .devReceive _ | .rtcSettime => false
  | .busRegister _ | .busBegin _ _ | .busRead _ | .busEnd | .devTryconnect _ _ | .devProduce _ | .devDisconnect
  | .rtcQuery | .pwmPin _ | .pwmResetall => true

/-- The handles an operation can reach (R141 to R145, R161 to R166, R194, R195). -/
def Claims.reaches (i : Instr) (s : State) (h : Handle) : Prop :=
  match i with
  | .busBegin a _ => s.block.bus.selected = some h ∨ s.block.bound a = some h
  | .busWrite _ | .busRead _ | .busEnd => s.block.bus.selected = some h
  | .devTryconnect _ _ | .devReceive _ | .devProduce _ | .devDisconnect | .rtcQuery | .rtcSettime => s.operands.h = h
  | .busRegister _ | .pwmPin _ | .pwmResetall => False

/-- What an operation can change of an RTC it reaches, by its kind. -/
def Claims.RtcFrame (i : Instr) (r r' : RtcState) : Prop :=
  match i with
  | .busBegin _ _ | .busEnd | .devTryconnect _ _ | .devDisconnect => { r' with ptrLoaded := r.ptrLoaded } = r
  | .busWrite _ | .devReceive _ =>
    r'.addr = r.addr ∧ r'.ptrLoaded = true ∧ ∀ p : Ptr, (r.ptrLoaded = false ∨ p ≠ r.ptr) → r'.regs[p] = r.regs[p]
  | .busRead _ | .devProduce _ =>
    { r' with regs := r.regs, ptr := r.ptr } = r ∧ ∀ p : Ptr, (r.halted = true ∨ 7 ≤ p.val) → r'.regs[p] = r.regs[p]
  | .rtcQuery =>
    { r' with regs := r.regs } = r ∧ ∀ p : Ptr, (r.halted = true ∨ 7 ≤ p.val) → r'.regs[p] = r.regs[p]
  | .rtcSettime =>
    { r' with regs := r.regs, refWall := r.refWall, refInstant := r.refInstant } = r ∧
      ∀ p : Ptr, 7 ≤ p.val → r'.regs[p] = r.regs[p]
  | .busRegister _ | .pwmPin _ | .pwmResetall => r' = r

/-- The machine with other actuator records. -/
def Claims.withPwm (m : PwmMap) (s : State) : State := { s with block := { s.block with pwm := m } }

/-- The machine with another Bus and other devices. -/
def Claims.withBus (bus : BusState) (devices : List Device) (s : State) : State :=
  { s with block := { s.block with bus := bus, devices := devices } }

/-- A change made to the next state, when there is one. -/
def Claims.mapNext {A B : Type} (f : State A → State B) : Result A → Result B
  | .next s => .next (f s)
  | .fault r => .fault r
  | .refused r => .refused r

/-- The side operands with another identifier for each actuator. -/
def Claims.renameOperands {A B : Type} (f : A → B) (o : SideOperands A) : SideOperands B :=
  ⟨o.h, o.t, o.w, f o.id, o.now⟩

/-- The machine with another identifier for each actuator. -/
def Claims.rename {A B : Type} (f : A → B) (s : State A) : State B where
  block := ⟨s.block.cfgError, s.block.refused, s.block.setupDone, s.block.bus, s.block.devices,
    s.block.pwm.map fun e => (f e.1, e.2)⟩
  pending := s.pending.map fun op => ⟨op.word, Claims.renameOperands f op.operands⟩
  operands := Claims.renameOperands f s.operands
  responses := s.responses

/-- The actuator identifiers that occur in a machine. -/
def Claims.identifiers {A : Type} (s : State A) : List A :=
  s.operands.id :: (s.pending.map fun op => op.operands.id) ++ s.block.pwm.map Prod.fst

/-- The clock registers of an RTC hold the date and time `y-mo-d h:mi:s` in the RTC's hour mode, the year within the
century (R108 to R118). -/
def Claims.HoldsFields (r : RtcState) (y mo d h mi s : Nat) : Prop :=
  s < 60 ∧ mi < 60 ∧ h < 24 ∧ 1 ≤ d ∧ 1 ≤ mo ∧ mo ≤ 12 ∧ 2000 ≤ y ∧ y < 2100 ∧
  (d : Int) ≤ daysFromCivil (if mo = 12 then y + 1 else y) (if mo = 12 then 1 else mo + 1) 1 - daysFromCivil y mo 1 ∧
  r.regs[0x00] = encSecond r.halted s ∧ r.regs[0x01] = dec2bcd mi ∧ r.regs[0x02] = encHour h r.mode12 ∧
  r.regs[0x04] = dec2bcd d ∧ r.regs[0x05] = dec2bcd mo ∧ r.regs[0x06] = dec2bcd (y % 100)

/-- The host operations of a list of instructions, all with the same side operands. -/
def Claims.ops (o : SideOperands) (is : List Instr) : List HostOp := is.map fun i => ⟨encode i, o⟩

/-! ## Encoding -/

/-- The word of every well-formed operation decodes to that operation, every operand at every value (R103, R104). -/
def Obligations.EncodeThenDecodeReturnsTheOperation : Prop :=
  ∀ i : Instr, i.wf = true → decode (encode i) = .ok i

/-- A word that decodes is the word of the operation it decodes to, and that operation is well formed: no bit of a
legal word is dropped and no operation has two words (R105, R106). -/
def Obligations.DecodedWordIsTheWordOfItsOperation : Prop :=
  ∀ (w : Word) (i : Instr), decode w = .ok i → i.wf = true ∧ encode i = w

/-- R105: the legal words are those of exactly one row of the table; every other word is refused with `ILLEGAL_WORD`,
every word with a reserved opcode among them. That the refused word changes nothing else, so that `setupDone` too stays
as it is, is read from R246 against R270: DEDUCED, log 8. -/
def Obligations.LegalWordsAreThoseOfExactlyOneRow : Prop :=
  (∀ w : Word, (∃ i, decode w = .ok i) ↔ (opTable.filter fun r => r.owns w).length = 1) ∧
  (∀ (s : State) (op : HostOp) (rest : List HostOp), s.pending = op :: rest → s.live →
    (opTable.filter fun r => r.owns op.word).length ≠ 1 →
    step s = .next { s with pending := rest, operands := op.operands,
                            block := { s.block with refused := some .illegalWord } }) ∧
  (∀ w : Word, (opField w).toNat ∉ [0x01, 0x02, 0x03, 0x04, 0x05, 0x10, 0x11, 0x12, 0x13, 0x20, 0x21, 0x30, 0x31] →
    (opTable.filter fun r => r.owns w).length ≠ 1)

/-- R123: the worked encodings, both ways. -/
def Obligations.WorkedEncodingsDecode : Prop :=
  ∀ x ∈ [(0x02E80000#32, Instr.busBegin 0x68 true), (0x02680000#32, .busBegin 0x68 false),
      (0x03000030#32, .busWrite 0x30#8), (0x04800000#32, .busRead true), (0x04000000#32, .busRead false),
      (0x05000000#32, .busEnd), (0x30800000#32, .pwmPin true)],
    decode x.1 = .ok x.2 ∧ encode x.2 = x.1

/-! ## The step and the preconditions of every operation -/

/-- A step takes the host's next operation off the port, puts its side operands there and is the execution of the
operation its word decodes to. With nothing pending the state stays as it is: the model's own choice, log 2. -/
def Obligations.StepExecutesTheDecodedOperation : Prop :=
  (∀ (s : State) (op : HostOp) (rest : List HostOp) (i : Instr), s.pending = op :: rest → decode op.word = .ok i →
    step s = exec i { s with pending := rest, operands := op.operands }) ∧
  (∀ (s : State) (w : Nat) (i : Instr), decodeTableWord 32 w = some i → step (s.withFetchWord 32 w) = exec i s) ∧
  (∀ s : State, s.pending = [] → step s = .next s)

/-- R140: without a circuit no operation has a step, and after a refusal an operation changes nothing and has no
response; so also for a word that is no operation. -/
def Obligations.NoCircuitNoStepAndRefusedChangesNothing : Prop :=
  (∀ (i : Instr) (s : State),
    (s.block.cfgError ≠ none → exec i s = .fault .noCircuit) ∧
    (s.block.cfgError = none → s.block.refused ≠ none → exec i s = .next s)) ∧
  (∀ (s : State) (op : HostOp) (rest : List HostOp), s.pending = op :: rest →
    (s.block.cfgError ≠ none → step s = .fault .noCircuit) ∧
    (s.block.cfgError = none → s.block.refused ≠ none →
      step s = .next { s with pending := rest, operands := op.operands }))

/-- R246: the refusal mark is never cleared, and every later operation of a run changes nothing. -/
def Obligations.RefusalMarkIsSticky : Prop :=
  ∀ (n : Nat) (s : State) (q : RefusalReason), s.block.cfgError = none → s.block.refused = some q →
    ∃ t : State, Host.Core.run core n s = .next t ∧ t.block = s.block ∧ t.responses = s.responses

/-- R248: "One operation reports at most one outcome": of an admitted operation exactly one, its response, a refusal
or a configuration error. -/
def Obligations.OneOperationReportsOneOutcome : Prop :=
  ∀ (i : Instr) (s : State), s.live → ∃ t : State, exec i s = .next t ∧
    t.pending = s.pending ∧ t.operands = s.operands ∧
    ((∃ r, t.responses = s.responses ++ [r] ∧ t.block.refused = none ∧ t.block.cfgError = none) ∨
     (∃ q, t.responses = s.responses ∧ t.block.refused = some q ∧ t.block.cfgError = none) ∨
     (∃ c, t.responses = s.responses ∧ t.block.refused = none ∧ t.block.cfgError = some c))

/-- R270 step 4: an operation other than bus.register ends the setup phase, also when its rule refuses it, and nothing
opens it again. -/
def Obligations.SetupEndsAtTheFirstOtherOperation : Prop :=
  (∀ (i : Instr) (s : State), s.live → (∀ a, i ≠ .busRegister a) →
    ∃ t : State, exec i s = .next t ∧ t.block.setupDone = true) ∧
  (∀ s t : State, step s = .next t → s.block.setupDone = true → t.block.setupDone = true) ∧
  (∀ (a : Int) (s t : State), exec (.busRegister a) s = .next t → t.block.setupDone = s.block.setupDone)

/-! ## The Bus -/

/-- R141: the checks of `bus.register` in their order, and the binding. -/
def Obligations.RegisterChecksInOrderThenBinds : Prop :=
  ∀ (s : State) (a : Int), s.live →
    (s.block.setupDone = true → Refuses (.busRegister a) s s.block .lateRegister) ∧
    (s.block.setupDone = false → (a < 0 ∨ a > 127) →
      exec (.busRegister a) s = .next { s with block := { s.block with cfgError := some .addrRange } }) ∧
    (∀ x : Addr7, s.block.setupDone = false → a = (x.val : Int) →
      (s.block.bus.map[x] ≠ none →
        exec (.busRegister a) s = .next { s with block := { s.block with cfgError := some .dupAddr } }) ∧
      (s.block.bus.map[x] = none → s.block.device s.operands.h = none →
        Refuses (.busRegister a) s s.block .unknownHandle) ∧
      (s.block.bus.map[x] = none → s.block.device s.operands.h ≠ none →
        Completes (.busRegister a) s
          { s.block with bus := { s.block.bus with map := s.block.bus.map.set x (some s.operands.h) } } .unit))

/-- R142, R243: a START first disconnects the selected device; a miss or a device's NACK then selects nothing, and the
device that acknowledges is selected, its framing reset and its pointer kept. -/
def Obligations.StartReleasesThenSelects : Prop :=
  ∀ (s : State) (a : Addr7) (isWrite : Bool) (b : Block), s.live → Claims.Released (Claims.entered s) b →
    (b.bus.map[a] = none → Completes (.busBegin a isWrite) s b (.ack false)) ∧
    (∀ h r, b.bus.map[a] = some h → b.hasRtc h r →
      (a ≠ r.addr → Completes (.busBegin a isWrite) s b (.ack false)) ∧
      (a = r.addr → Completes (.busBegin a isWrite) s
        { Claims.putRtc b h { r with ptrLoaded := false } with bus := { b.bus with selected := some h } } (.ack true)))

/-- R145, R166: a STOP disconnects the selected device, keeps its pointer and clears the selection; with nothing
selected it does nothing. -/
def Obligations.StopReleasesTheSelectedDevice : Prop :=
  ∀ (s : State) (b : Block), s.live → Claims.Released (Claims.entered s) b → Completes .busEnd s b .unit

/-- R143: a byte write goes to the selected device; with nothing selected it is a NACK without effect. -/
def Obligations.BusWriteReachesTheSelectedDevice : Prop :=
  ∀ (s : State) (v : Byte), s.live →
    (s.block.bus.selected = none → Completes (.busWrite v) s (Claims.entered s) (.ack false)) ∧
    (∀ h r, s.block.bus.selected = some h → s.block.hasRtc h r →
      ∃ r', Claims.Received r v s.operands.t r' ∧
        Completes (.busWrite v) s (Claims.putRtc (Claims.entered s) h r') (.ack true))

/-- R144: a byte read comes from the selected device; with nothing selected it gives `IDLE_READ` without effect. -/
def Obligations.BusReadComesFromTheSelectedDevice : Prop :=
  ∀ (s : State) (ack : Bool), s.live →
    (s.block.bus.selected = none → Completes (.busRead ack) s (Claims.entered s) (.byte Config.idleRead)) ∧
    (∀ h r, s.block.bus.selected = some h → s.block.hasRtc h r →
      ∃ r' v, Claims.Produced r ack s.operands.t r' v ∧
        Completes (.busRead ack) s (Claims.putRtc (Claims.entered s) h r') (.byte v))

/-- R148: after a START at an unbound address nothing is selected, and a byte write and a byte read that follow have
no effect on any device and answer NACK and `IDLE_READ`. -/
def Obligations.AddressMissLeavesNothingToReach : Prop :=
  ∀ (s : State) (a : Addr7) (isWrite ack : Bool) (v : Byte) (o : SideOperands), s.live → s.block.selectionSound →
    s.block.bus.map[a] = none →
    ∃ t, exec (.busBegin a isWrite) s = .next t ∧ t.responses = s.responses ++ [.ack false] ∧
      t.block.bus.selected = none ∧
      Completes (.busWrite v) (Claims.on t o) t.block (.ack false) ∧
      Completes (.busRead ack) (Claims.on t o) t.block (.byte Config.idleRead)

/-- R160: the Bus and the direct port apply the same rules to the selected device, also where the rule refuses. -/
def Obligations.BusAndDirectPortApplyTheSameRules : Prop :=
  ∀ (s : State) (v : Byte) (ack : Bool), s.block.bus.selected = some s.operands.h →
    exec (.busWrite v) s = exec (.devReceive v) s ∧ exec (.busRead ack) s = exec (.devProduce ack) s

/-- R31: an entry of the bus map, once set, is never changed or cleared; only `bus.register` writes the map, and only
in the setup phase. -/
def Obligations.BusMapEntriesNeverChange : Prop :=
  ∀ (s t : State), step s = .next t →
    (∀ a h, s.block.bus.map[(a : Addr7)] = some h → t.block.bus.map[a] = some h) ∧
    (s.block.setupDone = true → t.block.bus.map = s.block.bus.map)

/-- R32: the selection is written by bus.begin and bus.end only. -/
def Obligations.OnlyBeginAndEndWriteTheSelection : Prop :=
  ∀ (i : Instr) (s t : State), exec i s = .next t → (∀ a w, i ≠ .busBegin a w) → i ≠ .busEnd →
    t.block.bus.selected = s.block.bus.selected

/-! ## The device port -/

/-- R161: a connect is acknowledged exactly at the device's own address, in either direction, and then expects a
pointer byte next; the pointer is kept. -/
def Obligations.TryConnectMatchesTheConfiguredAddress : Prop :=
  ∀ (s : State) (a : Addr7) (isWrite : Bool) (r : RtcState), s.live → s.block.hasRtc s.operands.h r →
    (a = r.addr → Completes (.devTryconnect a isWrite) s
      (Claims.putRtc (Claims.entered s) s.operands.h { r with ptrLoaded := false }) (.ack true)) ∧
    (a ≠ r.addr → Completes (.devTryconnect a isWrite) s (Claims.entered s) (.ack false))

/-- R162, R163, R167, R170, R190 to R193: a received byte is the pointer byte, or a data byte stored whole at the
pointer with the side effect of its offset; it is always acknowledged. -/
def Obligations.ReceiveTakesPointerThenData : Prop :=
  ∀ (s : State) (v : Byte) (r : RtcState), s.live → s.block.hasRtc s.operands.h r →
    ∃ r', Claims.Received r v s.operands.t r' ∧
      Completes (.devReceive v) s (Claims.putRtc (Claims.entered s) s.operands.h r') (.ack true)

/-- R164, R165: a produced byte is the byte at the pointer after derivation; the pointer advances exactly when the
master will acknowledge. -/
def Obligations.ProduceDerivesThenReadsAtThePointer : Prop :=
  ∀ (s : State) (ack : Bool) (r : RtcState), s.live → s.block.hasRtc s.operands.h r →
    ∃ r' v, Claims.Produced r ack s.operands.t r' v ∧
      Completes (.devProduce ack) s (Claims.putRtc (Claims.entered s) s.operands.h r') (.byte v)

/-- R166: a disconnect resets the framing and keeps everything else. -/
def Obligations.DisconnectResetsTheFraming : Prop :=
  ∀ (s : State) (r : RtcState), s.live → s.block.hasRtc s.operands.h r →
    Completes .devDisconnect s (Claims.putRtc (Claims.entered s) s.operands.h { r with ptrLoaded := false }) .unit

/-- R147: an operation that reaches a handle without an RTC is refused with the reason of what is there, and has no
other effect (R250); a START refused at its new address has not disconnected the old device. -/
def Obligations.OperationsWithoutAnRtcAreRefused : Prop :=
  ∀ (s : State) (q : RefusalReason), s.live →
    (Claims.NoRtc s.block s.operands.h q → ∀ (a : Addr7) (f : Bool) (v : Byte), ∀ i ∈
      [Instr.devTryconnect a f, .devReceive v, .devProduce f, .devDisconnect, .rtcQuery, .rtcSettime],
      Refuses i s (Claims.entered s) q) ∧
    (∀ h, s.block.bus.selected = some h → Claims.NoRtc s.block h q → ∀ (a : Addr7) (f : Bool) (v : Byte), ∀ i ∈
      [Instr.busBegin a f, .busWrite v, .busRead f, .busEnd], Refuses i s (Claims.entered s) q) ∧
    (∀ b h (a : Addr7) (f : Bool), Claims.Released (Claims.entered s) b → b.bus.map[a] = some h →
      Claims.NoRtc b h q → Refuses (.busBegin a f) s (Claims.entered s) q)

/-- R41, R33: no operation adds or removes a device, turns one into another or changes an RTC's configured address. -/
def Obligations.DeviceArenaIsFixed : Prop :=
  ∀ (s t : State), step s = .next t → t.block.devices.length = s.block.devices.length ∧
    ∀ h, (s.block.device h = some .other → t.block.device h = some .other) ∧
      (∀ r, s.block.hasRtc h r → ∃ r', t.block.hasRtc h r' ∧ r'.addr = r.addr)

/-- What each operation leaves unchanged: every device it does not reach, and of an RTC it reaches all but what its
rule writes (R142 to R145, R161 to R166, R187, R194, R195, R220). -/
def Obligations.OperationsKeepWhatTheirRuleDoesNotWrite : Prop :=
  ∀ (i : Instr) (s t : State), exec i s = .next t →
    (∀ h, ¬ Claims.reaches i s h → t.block.device h = s.block.device h) ∧
    (s.live → t.live → ∀ h r r', Claims.reaches i s h → s.block.hasRtc h r → t.block.hasRtc h r' →
      Claims.RtcFrame i r r')

/-- R168: a transaction with pointer byte 62 followed by n data bytes writes them at 62, 63, 0, 1, … in that order and
leaves the pointer at (62 + n) mod 64; every byte is acknowledged. On either port and for any n: a register written more
than once holds the last byte that went to it, one of the last 64. -/
def Obligations.WriteBurstWrapsAtTheTop : Prop :=
  ∀ (s : State) (o : SideOperands) (h : Handle) (write : Byte → Instr) (bytes : List Byte) (r : RtcState), s.live →
    (write = .devReceive ∧ o.h = h) ∨ (write = .busWrite ∧ s.block.bus.selected = some h) →
    s.block.hasRtc h r → r.ptrLoaded = false →
    s.pending = Claims.ops o (write 62#8 :: bytes.map write) →
    ∃ (t : State) (r' : RtcState), Host.Core.run core (bytes.length + 1) s = .next t ∧ t.block.hasRtc h r' ∧
      r'.ptr.val = (62 + bytes.length) % 64 ∧
      (∀ (i : Nat) (hi : i < bytes.length), bytes.length ≤ i + 64 → r'.regs[Fin.ofNat 64 (62 + i)] = bytes[i]) ∧
      t.responses = s.responses ++ List.replicate (bytes.length + 1) (.ack true)

/-- R281, R122: a register read through the Bus, as `i2c.readreg a, p, 1` writes it: pointer write, repeated START,
one byte not acknowledged, STOP. The byte is the register at p of the RTC derived at the time of the read, and the
pointer stays at p. A device may be selected before, as the selection invariant (R146) allows: the first START releases
it. -/
def Obligations.ReadregReturnsTheRegister : Prop :=
  ∀ (s : State) (o : SideOperands) (a : Addr7) (p : Byte) (h : Handle) (r : RtcState), s.live →
    s.block.selectionSound → s.block.bus.map[a] = some h → s.block.hasRtc h r → r.addr = a → p.toNat < 64 →
    s.pending = Claims.ops o (Pseudo.i2cReadreg a p 1).busOps →
    ∃ (t : State) (r' : RtcState), Host.Core.run core 5 s = .next t ∧ t.block.hasRtc h r' ∧
      Claims.Derived { r with ptr := Fin.ofNat 64 p.toNat, ptrLoaded := false } o.t r' ∧
      t.block.bus.selected = none ∧
      t.responses = s.responses ++ [.ack true, .ack true, .ack true, .byte r'.regs[Fin.ofNat 64 p.toNat], .unit]

/-! ## The RTC -/

/-- R194: the query derives and returns the decoded fields; nothing else changes. -/
def Obligations.QueryDerivesAndDecodes : Prop :=
  ∀ (s : State) (r : RtcState), s.live → s.block.hasRtc s.operands.h r →
    ∃ d, Claims.Derived r s.operands.t d ∧
      Completes .rtcQuery s (Claims.putRtc (Claims.entered s) s.operands.h d)
        (.dateTime ⟨bcd2dec (d.regs[0x00] &&& 0x7F#8), bcd2dec (d.regs[0x01] &&& 0x7F#8),
          decHour d.regs[0x02] d.mode12, d.regs[0x03].toNat, bcd2dec (d.regs[0x04] &&& 0x3F#8),
          bcd2dec (d.regs[0x05] &&& 0x1F#8), 2000 + bcd2dec d.regs[0x06], d.halted⟩)

/-- R195: the setter writes both references and the seven time registers of w, and keeps the halt and the hour mode. -/
def Obligations.SetterForcesTheTimeOrigin : Prop :=
  ∀ (s : State) (r : RtcState), s.live → s.block.hasRtc s.operands.h r →
    ∃ r', Completes .rtcSettime s (Claims.putRtc (Claims.entered s) s.operands.h r') .unit ∧
      { r' with regs := r.regs } = { r with refWall := s.operands.w, refInstant := s.operands.t } ∧
      (∀ p : Fin 7, r'.regs[p] = (timeBytes r.halted r.mode12 s.operands.w)[p]) ∧
      (∀ p : Ptr, 7 ≤ p.val → r'.regs[p] = r.regs[p])

/-- R185, R189, R200: what a query reads after the registers were written from a wall instant, in either hour mode,
halted or not, for every instant: the fields of the instant's Gregorian date and time, the year modulo the century. The
calendar (R182) and the weekday numbering (R184) are the spec's decisions D6 and D7 from general knowledge (G5, G7),
which the model follows: DEDUCED, log 16. -/
def Obligations.DecodedFieldsAreThoseOfTheInstant : Prop :=
  ∀ (r : RtcState) (inst : Millis),
    let S := (inst / 1000).floor
    let c := civilFromDays (S / 86400)
    let f := (r.materialize inst).decodeFields
    (f.second : Int) = S % 60 ∧ (f.minute : Int) = S % 3600 / 60 ∧ (f.hour : Int) = S % 86400 / 3600 ∧
      (f.weekday : Int) = (S / 86400 + 4) % 7 + 1 ∧ (f.date : Int) = c.day ∧ (f.month : Int) = c.month ∧
      (f.year : Int) = 2000 + c.year % 100 ∧ f.halted = r.halted

/-- R182, R183: the day number of the date of a day number is that day number, for every integer, and the date's month
and day are a month and a day of one. The calendar is the spec's decision from general knowledge (G6, D6): DEDUCED,
log 16. -/
def Obligations.DaysAndDatesRoundTrip : Prop :=
  ∀ z : Int, daysFromCivil (civilFromDays z).year (civilFromDays z).month (civilFromDays z).day = z ∧
    1 ≤ (civilFromDays z).month ∧ (civilFromDays z).month ≤ 12 ∧
    1 ≤ (civilFromDays z).day ∧ (civilFromDays z).day ≤ 31

/-- R188: "For register contents the RTC itself produced, `instantOfRegs` is the instant of those fields exactly":
within the century the registers cover (R200), writing a wall instant and reading the registers back gives the
instant's whole second. The calendar is log 16 (DEDUCED). -/
def Obligations.RegistersReadBackTheirInstant : Prop :=
  ∀ (r : RtcState) (inst : Millis), 946684800000 ≤ inst → inst < 4102444800000 →
    (r.materialize inst).instantOfRegs = ((inst / 1000).floor : Rat) * 1000

/-- R197: after a run write whose registers then hold valid fields, derivation at t gives the registers of their instant
plus the time since, and derivation at the time of the write changes no register but the weekday. Valid fields are
those of a date of 2000..2099, the years the year register holds (R200). The calendar is log 16 (DEDUCED). -/
def Obligations.RunWriteResumesWithZeroJump : Prop :=
  ∀ (r r' : RtcState) (v : Byte) (t1 : Millis) (y mo d h mi s : Nat), r.ptrLoaded = true → r.ptr = 0x00 →
    v.getLsbD 7 = false → Claims.Received r v t1 r' → Claims.HoldsFields r' y mo d h mi s →
    (∀ t, (r'.derive t).regs =
      writeTimeBytes r'.regs (timeBytes false r'.mode12
        ((((daysFromCivil y mo d * 86400 + h * 3600 + mi * 60 + s) * 1000 : Int) : Rat) + (t - t1)))) ∧
    (∀ p : Ptr, p ≠ 0x03 → (r'.derive t1).regs[p] = r'.regs[p])

/-- R78: of two consecutive reads at the same t, neither acknowledged, the second returns the same byte and leaves the
state the first left, but for the response it adds. -/
def Obligations.RepeatedReadAtOneTimeRepeats : Prop :=
  ∀ (s : State) (r : RtcState), s.live → s.block.hasRtc s.operands.h r →
    ∃ (t : State) (v : Byte), exec (.devProduce false) s = .next t ∧ t.responses = s.responses ++ [.byte v] ∧
      Completes (.devProduce false) t t.block (.byte v)

/-- R196: while an RTC is halted, no run of operations that are no byte writes and no setter changes any of its
registers, whatever time passes. -/
def Obligations.HaltFreezesTheRegisters : Prop :=
  ∀ (n : Nat) (s t : State) (h : Handle) (r : RtcState), s.block.hasRtc h r → r.halted = true →
    (∀ op ∈ s.pending, ∀ i, decode op.word = .ok i → Claims.readsOnly i = true) →
    Host.Core.run core n s = .next t →
    ∃ r', t.block.hasRtc h r' ∧ r'.regs = r.regs ∧ r'.halted = true ∧ r'.refWall = r.refWall ∧
      r'.refInstant = r.refInstant

/-- R257: "The halt is left only by a seconds write with bit 7 = 0". -/
def Obligations.HaltIsLeftOnlyByARunWrite : Prop :=
  ∀ (i : Instr) (s t : State) (h : Handle) (r r' : RtcState), exec i s = .next t → s.block.hasRtc h r →
    t.block.hasRtc h r' → r.halted = true → r'.halted = false →
    ∃ v, (i = .busWrite v ∨ i = .devReceive v) ∧ v.getLsbD 7 = false ∧ r.ptrLoaded = true ∧ r.ptr = 0x00

/-- R277: a byte written to offset 0x01, 0x03, 0x04, 0x05 or 0x06 of a running clock is lost at the next derivation:
the read that follows finds the seven time registers as if it had not been written. -/
def Obligations.FieldWritesToARunningClockAreLost : Prop :=
  ∀ (s : State) (o : SideOperands) (v : Byte) (ack : Bool) (r : RtcState), s.live → s.block.hasRtc s.operands.h r →
    o.h = s.operands.h → r.ptrLoaded = true → r.halted = false → r.ptr.val ∈ [0x01, 0x03, 0x04, 0x05, 0x06] →
    ∃ (u t : State) (r' : RtcState), exec (.devReceive v) s = .next u ∧
      exec (.devProduce ack) (Claims.on u o) = .next t ∧ t.block.hasRtc o.h r' ∧
      (∀ p : Fin 7, r'.regs[p] = (timeBytes false r.mode12 (r.refWall + (o.t - r.refInstant)))[p]) ∧
      r'.refWall = r.refWall ∧ r'.refInstant = r.refInstant

/-! ## The PWM decoder -/

/-- R221, R224: a pin report against the actuator's record, created first if there is none: a rising edge starts the
pulse, a falling edge ends it and publishes the angle of a valid width, and no edge changes nothing. Every other
actuator, the Bus and the devices stay as they are. That the operation answers `.unit`, nothing returned, is the
model's reading: R224 writes no return (DEDUCED, log 6). -/
def Obligations.PinReportTracksTheEdges : Prop :=
  ∀ (s : State) (level : Bool) (p : PwmRec), s.live →
    p = ((PwmMap.find s.operands.id s.block.pwm).getD ⟨false, none, Config.pwmInitAngle⟩) →
    ∃ p' m, Completes (.pwmPin level) s { Claims.entered s with pwm := m } .unit ∧
      PwmMap.find s.operands.id m = some p' ∧
      (∀ id, id ≠ s.operands.id → PwmMap.find id m = PwmMap.find id s.block.pwm) ∧
      (level = true → p.lastLevel = false → p' = ⟨true, some s.operands.now, p.angle⟩) ∧
      (∀ s0, level = false → p.lastLevel = true → p.start = some s0 →
        (500 ≤ s.operands.now - s0 → s.operands.now - s0 ≤ 2500 →
          p' = ⟨false, some s0, min (max ((s.operands.now - s0 - 1000) / 1000 * 180) 0) 180⟩) ∧
        (s.operands.now - s0 < 500 ∨ 2500 < s.operands.now - s0 → p' = ⟨false, some s0, p.angle⟩)) ∧
      (level = p.lastLevel → p' = p)

/-- R225: `resetAll` sets every tracked actuator to 90, low and without a rising edge; it creates and removes none. -/
def Obligations.ResetAllNeutralisesEveryTrackedActuator : Prop :=
  ∀ s : State, s.live → ∃ m, Completes .pwmResetall s { Claims.entered s with pwm := m } .unit ∧
    ∀ id, PwmMap.find id m = (PwmMap.find id s.block.pwm).map fun _ => ⟨false, none, 90⟩

/-- R223, R227, R228: a pulse of width w from a low actuator gives 0 up to 1000, 180 from 2000, `(w - 1000) * 9 / 50`
between, and outside 500..2500 the angle the actuator had (the initial one if it was untracked). -/
def Obligations.PulseWidthSetsTheAngle : Prop :=
  ∀ (s : State) (o1 o2 : SideOperands) (p : PwmRec), s.live → o2.id = o1.id →
    p = ((PwmMap.find o1.id s.block.pwm).getD ⟨false, none, Config.pwmInitAngle⟩) → p.lastLevel = false →
    ∃ u t : State, exec (.pwmPin true) (Claims.on s o1) = .next u ∧ exec (.pwmPin false) (Claims.on u o2) = .next t ∧
      u.block.angleOut o1.id = some p.angle ∧
      t.block.angleOut o1.id = some (
        if o2.now - o1.now < 500 ∨ 2500 < o2.now - o1.now then p.angle
        else if o2.now - o1.now ≤ 1000 then 0
        else if 2000 ≤ o2.now - o1.now then 180
        else (o2.now - o1.now - 1000) * 9 / 50)

/-- R226: a published angle changes only at a falling edge of its actuator with a valid width, and at `resetAll`, in
every state whose actuator records meet their invariant (R43, kept by every step, its angle range under log 4). -/
def Obligations.AnglesChangeOnlyAtValidFallsAndReset : Prop :=
  ∀ (i : Instr) (s t : State) (id : ActuatorId) (q q' : Rat), (∀ e ∈ s.block.pwm, e.2.sound = true) →
    exec i s = .next t →
    s.block.angleOut id = some q → t.block.angleOut id = some q' → q' ≠ q →
    i = .pwmResetall ∨ (i = .pwmPin false ∧ s.operands.id = id ∧
      ∃ p s0, PwmMap.find id s.block.pwm = some p ∧ p.lastLevel = true ∧ p.start = some s0 ∧
        500 ≤ s.operands.now - s0 ∧ s.operands.now - s0 ≤ 2500)

/-- R220: no Bus, device or RTC operation reads or writes the actuator records, and no PWM operation reads or writes
the Bus or the devices: exchanging the other unit's state before an operation is exchanging it after. -/
def Obligations.PwmAndBusDoNotSeeEachOther : Prop :=
  (∀ (i : Instr) (s : State) (m : PwmMap), Claims.isPwm i = false →
    exec i (Claims.withPwm m s) = Claims.mapNext (Claims.withPwm m) (exec i s)) ∧
  (∀ (i : Instr) (s : State) (bus : BusState) (devices : List Device), Claims.isPwm i = true →
    exec i (Claims.withBus bus devices s) = Claims.mapNext (Claims.withBus bus devices) (exec i s))

/-- R85: a PWM operation and an operation of the other units, other than a registration, give the same block and the
same responses in either order, when neither is refused. A registration stands out: after a PWM operation it is late
(R270 step 4, LATE_REGISTER). That a PWM operation has a response at all is the model's reading of R224 (DEDUCED,
log 6). -/
def Obligations.PwmOperationsCommuteWithTheOthers : Prop :=
  ∀ (i j : Instr) (s t : State) (oi oj : SideOperands), Claims.isPwm i = true → Claims.isPwm j = false →
    (∀ a, j ≠ .busRegister a) → s.live → exec j (Claims.on s oj) = .next t → t.live →
    ∃ (u v w : State) (ri rj : Response), exec i (Claims.on t oi) = .next u ∧ exec i (Claims.on s oi) = .next v ∧
      exec j (Claims.on v oj) = .next w ∧ w.block = u.block ∧
      u.responses = s.responses ++ [rj, ri] ∧ w.responses = s.responses ++ [ri, rj]

/-! ## Construction and the invariant -/

/-- R50, R270, R271: the circuit right after its construction, and each RTC in it. -/
def Obligations.ConstructionLeavesTheTabulatedValues : Prop :=
  ∀ devs : List DeviceSpec,
    let b := (State.construct devs : State).block
    b.cfgError = none ∧ b.refused = none ∧ b.setupDone = false ∧ b.bus.selected = none ∧
    (∀ a : Addr7, b.bus.map[a] = none) ∧ (∀ id, PwmMap.find id b.pwm = none) ∧
    (∀ h, devs.length ≤ h → b.device h = none) ∧
    (∀ (h : Handle) (p : RtcParams), devs[h]? = some (.rtc p) → ∃ r, b.hasRtc h r ∧ r.addr = p.addr ∧ r.ptr = 0 ∧
      r.ptrLoaded = false ∧ r.halted = false ∧ r.mode12 = false ∧ r.refInstant = p.t0Ms ∧ r.refWall = p.seedWall ∧
      (∀ k : Fin 7, r.regs[k] = (timeBytes false false p.seedWall)[k]) ∧ r.regs[0x07] = p.initControl ∧
      ∀ k : Ptr, 8 ≤ k.val → r.regs[k] = p.initScratch k.val)

/-- The invariant holds of every circuit right after its construction, that of `State.reset` among them. -/
def Obligations.ConstructionSatisfiesTheInvariant : Prop :=
  (∀ devs : List DeviceSpec, (State.construct devs : State).block.Inv) ∧ State.reset.block.Inv

/-- Every step keeps the invariant: R39 and R40 (the halt and the hour mode stay those of their register bits), R43 (a
high level has a recorded rising edge, the angle stays in 0..180), R146 (the selected device is bound at its own
address), and the form of the actuator records, no identifier twice. That angles stay in 0..180 rests on the model's
restriction of `PWM_INIT_ANGLE` to 0..180, which R43 asks for (`Config.pwmInitAngle`: DESIGN CHOICE, log 4); that no
identifier stands twice is the model's form of the records (DESIGN CHOICE, log 9). -/
def Obligations.EveryStepKeepsTheInvariant : Prop :=
  ∀ s t : State, s.block.Inv → step s = .next t → t.block.Inv

/-! ## The type of the actuator identifiers -/

/-- R11, R73: `ActuatorId` is any type with decidable equality. The machine is one machine for every such type, `exec`
and `step` are it for the type the host runs (log 5), and it only compares identifiers: where the identifiers that occur
are renamed, different ones to different ones, an operation and a step give what they gave, renamed. A state lists
finitely many identifiers, so what an operation does over one infinite type of them it does over every type. -/
def Obligations.ActuatorIdentifiersAreOnlyCompared : Prop :=
  (∀ (i : Instr) (s : State), exec i s = perform i s) ∧ (∀ s : State, step s = performStep s) ∧
  ∀ (A B : Type) [DecidableEq A] [DecidableEq B] (f : A → B) (s : State A),
    (∀ x ∈ Claims.identifiers s, ∀ y ∈ Claims.identifiers s, f x = f y → x = y) →
    (∀ i, perform i (Claims.rename f s) = Claims.mapNext (Claims.rename f) (perform i s)) ∧
    performStep (Claims.rename f s) = Claims.mapNext (Claims.rename f) (performStep s)
end

