-- ==== Sys2Proof/Laws/Codec.lean ====
section
/-! SUPPORT. The byte codecs: what the encoders of the time registers and the decoders say of each other
(30_encoding.md R108 to R118). -/

namespace Sys2Proof.Machine

/-- R112, one direction. -/
theorem bcd2dec_dec2bcd {v : Nat} (h : v < 100) : bcd2dec (dec2bcd v) = v := by
  revert v; decide

/-- The halt bit of a seconds register is the halt flag it was written with (R108). -/
theorem haltBit_encSecond {v : Nat} (halt : Bool) (h : v < 60) : haltBit (encSecond halt v) = halt := by
  revert v; revert halt; decide

/-- R108: the halt bit is masked out. -/
theorem decSecond_encSecond {v : Nat} (halt : Bool) (h : v < 60) : decSecond (encSecond halt v) = v := by
  revert v; revert halt; decide

theorem decMinute_dec2bcd {v : Nat} (h : v < 60) : decMinute (dec2bcd v) = v := by
  revert v; decide

theorem decDate_dec2bcd {v : Nat} (h : v < 32) : decDate (dec2bcd v) = v := by
  revert v; decide

theorem decMonth_dec2bcd {v : Nat} (h : v < 13) : decMonth (dec2bcd v) = v := by
  revert v; decide

/-- The mode bit of an hours register is the mode it was written in (R113). -/
theorem modeBit_encHour {v : Nat} (mode12 : Bool) (h : v < 24) : modeBit (encHour v mode12) = mode12 := by
  revert v; revert mode12; decide

/-- R115, the codec's inverse. -/
theorem decHour_encHour {v : Nat} (mode12 : Bool) (h : v < 24) : decHour (encHour v mode12) mode12 = v := by
  revert v; revert mode12; decide

end Sys2Proof.Machine
end

