-- ==== Sys2Proof/Laws/Encoding.lean ====
section
/-! SUPPORT. The decoder and the encoder: which row a decoded word belongs to, that a word's opcode is its row's, and
the bits of a packed word (30_encoding.md R101 to R106). -/

namespace Sys2Proof

/-- A decoded word belongs to a row of the table, which built the operation. -/
theorem decode_ok {w : Word} {i : Instr} (h : decode w = .ok i) :
    ∃ r ∈ opTable, r.owns w = true ∧ r.build w = i := by
  unfold decode at h
  split at h
  · cases h
  · rename_i r hr
    split at h
    · cases h; exact ⟨r, List.mem_of_find?_eq_some hr, by assumption, rfl⟩
    · cases h

/-- A property of every row is the property of each of the thirteen. -/
theorem forall_rows {P : OpRow → Prop} : (∀ r ∈ opTable, P r) ↔
    P opTable[0] ∧ P opTable[1] ∧ P opTable[2] ∧ P opTable[3] ∧ P opTable[4] ∧ P opTable[5] ∧ P opTable[6] ∧
    P opTable[7] ∧ P opTable[8] ∧ P opTable[9] ∧ P opTable[10] ∧ P opTable[11] ∧ P opTable[12] := by
  simp [opTable, busRows, deviceRows, rtcRows, pwmRows]

/-- Every row fixes the whole opcode field (R103). -/
theorem mask_opcode : ∀ r ∈ opTable, r.mask >>> 24 = 0xFF#32 := by
  rw [forall_rows]; decide +kernel

/-- A word of a row has the row's opcode, so the lookup on OP finds its row (R106). -/
theorem opField_of_owns {r : OpRow} (hr : r ∈ opTable) {w : Word} (ho : r.owns w = true) :
    opField w = opField r.pattern := by
  have h24 := mask_opcode r hr
  simp only [OpRow.owns, beq_iff_eq] at ho
  rw [← ho]
  apply BitVec.eq_of_getLsbD_eq
  intro i hi
  have hm : r.mask.getLsbD (24 + i) = true := by
    have := congrArg (fun x => x.getLsbD i) h24
    simp only [BitVec.getLsbD_ushiftRight] at this
    rw [this]
    have : ∀ i < 8, (0xFF#32).getLsbD i = true := by decide
    exact this i hi
  simp [opField, hi, hm]

/-- No two rows have the same opcode (R106). -/
theorem opcodes_nodup : (opTable.map fun r => opField r.pattern).Nodup := by decide +kernel

/-- The bits of a packed word, field by field (R101). -/
theorem getLsbD_packFields (op : Byte) (f : Bool) (a : BitVec 7) (d : Byte) (i : Nat) (h : i < 32) :
    (packFields op f a d).getLsbD i =
      if i < 8 then d.getLsbD i else if i < 16 then false else if i < 23 then a.getLsbD (i - 16)
      else if i = 23 then f else op.getLsbD (i - 24) := by
  unfold packFields
  simp only [BitVec.getLsbD_append, BitVec.getLsbD_ofBool, BitVec.getLsbD_zero]
  by_cases h1 : i < 8
  · simp [h1]
  · by_cases h2 : i < 16
    · have : i - 8 < 8 := by omega
      simp [h1, h2, this]
    · by_cases h3 : i < 23
      · have h4 : ¬ i - 8 < 8 := by omega
        have h5 : i - 8 - 8 < 7 := by omega
        have h6 : i - 8 - 8 = i - 16 := by omega
        simp [h1, h2, h3, h4, h5, ← h6]
      · have h4 : ¬ i - 8 < 8 := by omega
        have h5 : ¬ i - 8 - 8 < 7 := by omega
        by_cases h7 : i = 23
        · subst h7; simp
        · have h8 : ¬ i - 8 - 8 - 7 < 1 := by omega
          have h9 : i - 8 - 8 - 7 - 1 = i - 24 := by omega
          simp [h1, h2, h3, h4, h5, h7, h8, ← h9]

end Sys2Proof
end

