-- ==== Sys2Proof/Laws/State.lean ====
section
/-! SUPPORT. What each record update of the machine leaves in each field: one lemma a field, so that no proof unfolds
an update. -/

namespace Sys2Proof.Machine

variable {Ident : Type}

@[simp] theorem State.refuse_block (s : State Ident) (q : RefusalReason) :
    (s.refuse q).block = { s.block with refused := some q } := rfl
@[simp] theorem State.refuse_pending (s : State Ident) (q : RefusalReason) : (s.refuse q).pending = s.pending := rfl
@[simp] theorem State.refuse_operands (s : State Ident) (q : RefusalReason) : (s.refuse q).operands = s.operands := rfl
@[simp] theorem State.refuse_responses (s : State Ident) (q : RefusalReason) :
    (s.refuse q).responses = s.responses := rfl

@[simp] theorem State.raise_block (s : State Ident) (c : ConfigError) :
    (s.raise c).block = { s.block with cfgError := some c } := rfl
@[simp] theorem State.raise_pending (s : State Ident) (c : ConfigError) : (s.raise c).pending = s.pending := rfl
@[simp] theorem State.raise_operands (s : State Ident) (c : ConfigError) : (s.raise c).operands = s.operands := rfl
@[simp] theorem State.raise_responses (s : State Ident) (c : ConfigError) : (s.raise c).responses = s.responses := rfl

@[simp] theorem State.complete_block (s : State Ident) (b : Block Ident) (r : Response) :
    (s.complete b r).block = b := rfl
@[simp] theorem State.complete_pending (s : State Ident) (b : Block Ident) (r : Response) :
    (s.complete b r).pending = s.pending := rfl
@[simp] theorem State.complete_operands (s : State Ident) (b : Block Ident) (r : Response) :
    (s.complete b r).operands = s.operands := rfl
@[simp] theorem State.complete_responses (s : State Ident) (b : Block Ident) (r : Response) :
    (s.complete b r).responses = s.responses ++ [r] := rfl

@[simp] theorem State.enterSteady_block (s : State Ident) :
    (s.enterSteady).block = { s.block with setupDone := true } := rfl
@[simp] theorem State.enterSteady_pending (s : State Ident) : (s.enterSteady).pending = s.pending := rfl
@[simp] theorem State.enterSteady_operands (s : State Ident) : (s.enterSteady).operands = s.operands := rfl
@[simp] theorem State.enterSteady_responses (s : State Ident) : (s.enterSteady).responses = s.responses := rfl

@[simp] theorem State.take_block (s : State Ident) (op : HostOp Ident) (rest : List (HostOp Ident)) :
    (s.take op rest).block = s.block := rfl
@[simp] theorem State.take_pending (s : State Ident) (op : HostOp Ident) (rest : List (HostOp Ident)) :
    (s.take op rest).pending = rest := rfl
@[simp] theorem State.take_operands (s : State Ident) (op : HostOp Ident) (rest : List (HostOp Ident)) :
    (s.take op rest).operands = op.operands := rfl
@[simp] theorem State.take_responses (s : State Ident) (op : HostOp Ident) (rest : List (HostOp Ident)) :
    (s.take op rest).responses = s.responses := rfl

@[simp] theorem State.present_block (s : State Ident) (w : Word) : (s.present w).block = s.block := rfl
@[simp] theorem State.present_pending (s : State Ident) (w : Word) :
    (s.present w).pending = ⟨w, s.operands⟩ :: s.pending := rfl
@[simp] theorem State.present_operands (s : State Ident) (w : Word) : (s.present w).operands = s.operands := rfl
@[simp] theorem State.present_responses (s : State Ident) (w : Word) : (s.present w).responses = s.responses := rfl

@[simp] theorem State.issue_block (s : State Ident) (ops : List (HostOp Ident)) : (s.issue ops).block = s.block := rfl
@[simp] theorem State.issue_pending (s : State Ident) (ops : List (HostOp Ident)) :
    (s.issue ops).pending = s.pending ++ ops := rfl
@[simp] theorem State.issue_operands (s : State Ident) (ops : List (HostOp Ident)) :
    (s.issue ops).operands = s.operands := rfl
@[simp] theorem State.issue_responses (s : State Ident) (ops : List (HostOp Ident)) :
    (s.issue ops).responses = s.responses := rfl

@[simp] theorem Block.setDevice_cfgError (b : Block Ident) (h : Handle) (d : Device) :
    (b.setDevice h d).cfgError = b.cfgError := rfl
@[simp] theorem Block.setDevice_refused (b : Block Ident) (h : Handle) (d : Device) :
    (b.setDevice h d).refused = b.refused := rfl
@[simp] theorem Block.setDevice_setupDone (b : Block Ident) (h : Handle) (d : Device) :
    (b.setDevice h d).setupDone = b.setupDone := rfl
@[simp] theorem Block.setDevice_bus (b : Block Ident) (h : Handle) (d : Device) : (b.setDevice h d).bus = b.bus := rfl
@[simp] theorem Block.setDevice_devices (b : Block Ident) (h : Handle) (d : Device) :
    (b.setDevice h d).devices = b.devices.set h d := rfl
@[simp] theorem Block.setDevice_pwm (b : Block Ident) (h : Handle) (d : Device) : (b.setDevice h d).pwm = b.pwm := rfl

@[simp] theorem Block.bind_cfgError (b : Block Ident) (a : Addr7) (h : Handle) :
    (b.bind a h).cfgError = b.cfgError := rfl
@[simp] theorem Block.bind_refused (b : Block Ident) (a : Addr7) (h : Handle) : (b.bind a h).refused = b.refused := rfl
@[simp] theorem Block.bind_setupDone (b : Block Ident) (a : Addr7) (h : Handle) :
    (b.bind a h).setupDone = b.setupDone := rfl
@[simp] theorem Block.bind_bus (b : Block Ident) (a : Addr7) (h : Handle) :
    (b.bind a h).bus = { b.bus with map := b.bus.map.set a (some h) } := rfl
@[simp] theorem Block.bind_devices (b : Block Ident) (a : Addr7) (h : Handle) : (b.bind a h).devices = b.devices := rfl
@[simp] theorem Block.bind_pwm (b : Block Ident) (a : Addr7) (h : Handle) : (b.bind a h).pwm = b.pwm := rfl

@[simp] theorem Block.select_cfgError (b : Block Ident) (x : Option Handle) : (b.select x).cfgError = b.cfgError := rfl
@[simp] theorem Block.select_refused (b : Block Ident) (x : Option Handle) : (b.select x).refused = b.refused := rfl
@[simp] theorem Block.select_setupDone (b : Block Ident) (x : Option Handle) :
    (b.select x).setupDone = b.setupDone := rfl
@[simp] theorem Block.select_bus (b : Block Ident) (x : Option Handle) :
    (b.select x).bus = { b.bus with selected := x } := rfl
@[simp] theorem Block.select_devices (b : Block Ident) (x : Option Handle) : (b.select x).devices = b.devices := rfl
@[simp] theorem Block.select_pwm (b : Block Ident) (x : Option Handle) : (b.select x).pwm = b.pwm := rfl

@[simp] theorem Block.pinLevel_cfgError [DecidableEq Ident] (b : Block Ident) (id : Ident) (level : Bool)
    (now : Micros) :
    (b.pinLevel id level now).cfgError = b.cfgError := rfl
@[simp] theorem Block.pinLevel_refused [DecidableEq Ident] (b : Block Ident) (id : Ident) (level : Bool)
    (now : Micros) :
    (b.pinLevel id level now).refused = b.refused := rfl
@[simp] theorem Block.pinLevel_setupDone [DecidableEq Ident] (b : Block Ident) (id : Ident) (level : Bool)
    (now : Micros) :
    (b.pinLevel id level now).setupDone = b.setupDone := rfl
@[simp] theorem Block.pinLevel_bus [DecidableEq Ident] (b : Block Ident) (id : Ident) (level : Bool) (now : Micros) :
    (b.pinLevel id level now).bus = b.bus := rfl
@[simp] theorem Block.pinLevel_devices [DecidableEq Ident] (b : Block Ident) (id : Ident) (level : Bool)
    (now : Micros) :
    (b.pinLevel id level now).devices = b.devices := rfl
@[simp] theorem Block.pinLevel_pwm [DecidableEq Ident] (b : Block Ident) (id : Ident) (level : Bool) (now : Micros) :
    (b.pinLevel id level now).pwm = PwmMap.put id ((PwmMap.track b.pwm id).report level now) b.pwm := rfl

@[simp] theorem Block.resetAll_cfgError (b : Block Ident) : (b.resetAll).cfgError = b.cfgError := rfl
@[simp] theorem Block.resetAll_refused (b : Block Ident) : (b.resetAll).refused = b.refused := rfl
@[simp] theorem Block.resetAll_setupDone (b : Block Ident) : (b.resetAll).setupDone = b.setupDone := rfl
@[simp] theorem Block.resetAll_bus (b : Block Ident) : (b.resetAll).bus = b.bus := rfl
@[simp] theorem Block.resetAll_devices (b : Block Ident) : (b.resetAll).devices = b.devices := rfl
@[simp] theorem Block.resetAll_pwm (b : Block Ident) :
    (b.resetAll).pwm = b.pwm.map fun e => (e.1, e.2.neutral) := rfl

@[simp] theorem RtcState.write_addr (r : RtcState) (p : Ptr) (v : Byte) : (r.write p v).addr = r.addr := rfl
@[simp] theorem RtcState.write_regs (r : RtcState) (p : Ptr) (v : Byte) : (r.write p v).regs = r.regs.set p v := rfl
@[simp] theorem RtcState.write_ptr (r : RtcState) (p : Ptr) (v : Byte) : (r.write p v).ptr = r.ptr := rfl
@[simp] theorem RtcState.write_ptrLoaded (r : RtcState) (p : Ptr) (v : Byte) :
    (r.write p v).ptrLoaded = r.ptrLoaded := rfl
@[simp] theorem RtcState.write_refInstant (r : RtcState) (p : Ptr) (v : Byte) :
    (r.write p v).refInstant = r.refInstant := rfl
@[simp] theorem RtcState.write_refWall (r : RtcState) (p : Ptr) (v : Byte) : (r.write p v).refWall = r.refWall := rfl
@[simp] theorem RtcState.write_halted (r : RtcState) (p : Ptr) (v : Byte) : (r.write p v).halted = r.halted := rfl
@[simp] theorem RtcState.write_mode12 (r : RtcState) (p : Ptr) (v : Byte) : (r.write p v).mode12 = r.mode12 := rfl

@[simp] theorem RtcState.advance_addr (r : RtcState) : (r.advance).addr = r.addr := rfl
@[simp] theorem RtcState.advance_regs (r : RtcState) : (r.advance).regs = r.regs := rfl
@[simp] theorem RtcState.advance_ptr (r : RtcState) : (r.advance).ptr = r.ptr + 1 := rfl
@[simp] theorem RtcState.advance_ptrLoaded (r : RtcState) : (r.advance).ptrLoaded = r.ptrLoaded := rfl
@[simp] theorem RtcState.advance_refInstant (r : RtcState) : (r.advance).refInstant = r.refInstant := rfl
@[simp] theorem RtcState.advance_refWall (r : RtcState) : (r.advance).refWall = r.refWall := rfl
@[simp] theorem RtcState.advance_halted (r : RtcState) : (r.advance).halted = r.halted := rfl
@[simp] theorem RtcState.advance_mode12 (r : RtcState) : (r.advance).mode12 = r.mode12 := rfl

@[simp] theorem RtcState.materialize_addr (r : RtcState) (inst : Millis) : (r.materialize inst).addr = r.addr := rfl
@[simp] theorem RtcState.materialize_regs (r : RtcState) (inst : Millis) :
    (r.materialize inst).regs = writeTimeBytes r.regs (timeBytes r.halted r.mode12 inst) := rfl
@[simp] theorem RtcState.materialize_ptr (r : RtcState) (inst : Millis) : (r.materialize inst).ptr = r.ptr := rfl
@[simp] theorem RtcState.materialize_ptrLoaded (r : RtcState) (inst : Millis) :
    (r.materialize inst).ptrLoaded = r.ptrLoaded := rfl
@[simp] theorem RtcState.materialize_refInstant (r : RtcState) (inst : Millis) :
    (r.materialize inst).refInstant = r.refInstant := rfl
@[simp] theorem RtcState.materialize_refWall (r : RtcState) (inst : Millis) :
    (r.materialize inst).refWall = r.refWall := rfl
@[simp] theorem RtcState.materialize_halted (r : RtcState) (inst : Millis) :
    (r.materialize inst).halted = r.halted := rfl
@[simp] theorem RtcState.materialize_mode12 (r : RtcState) (inst : Millis) :
    (r.materialize inst).mode12 = r.mode12 := rfl

@[simp] theorem RtcState.resync_addr (r : RtcState) (t : Millis) : (r.resync t).addr = r.addr := rfl
@[simp] theorem RtcState.resync_regs (r : RtcState) (t : Millis) : (r.resync t).regs = r.regs := rfl
@[simp] theorem RtcState.resync_ptr (r : RtcState) (t : Millis) : (r.resync t).ptr = r.ptr := rfl
@[simp] theorem RtcState.resync_ptrLoaded (r : RtcState) (t : Millis) : (r.resync t).ptrLoaded = r.ptrLoaded := rfl
@[simp] theorem RtcState.resync_refInstant (r : RtcState) (t : Millis) : (r.resync t).refInstant = t := rfl
@[simp] theorem RtcState.resync_refWall (r : RtcState) (t : Millis) : (r.resync t).refWall = r.instantOfRegs := rfl
@[simp] theorem RtcState.resync_halted (r : RtcState) (t : Millis) : (r.resync t).halted = r.halted := rfl
@[simp] theorem RtcState.resync_mode12 (r : RtcState) (t : Millis) : (r.resync t).mode12 = r.mode12 := rfl

@[simp] theorem RtcState.hoursWrite_addr (r : RtcState) (v : Byte) : (r.hoursWrite v).addr = r.addr := rfl
@[simp] theorem RtcState.hoursWrite_regs (r : RtcState) (v : Byte) : (r.hoursWrite v).regs = r.regs := rfl
@[simp] theorem RtcState.hoursWrite_ptr (r : RtcState) (v : Byte) : (r.hoursWrite v).ptr = r.ptr := rfl
@[simp] theorem RtcState.hoursWrite_ptrLoaded (r : RtcState) (v : Byte) :
    (r.hoursWrite v).ptrLoaded = r.ptrLoaded := rfl
@[simp] theorem RtcState.hoursWrite_refInstant (r : RtcState) (v : Byte) :
    (r.hoursWrite v).refInstant = r.refInstant := rfl
@[simp] theorem RtcState.hoursWrite_refWall (r : RtcState) (v : Byte) : (r.hoursWrite v).refWall = r.refWall := rfl
@[simp] theorem RtcState.hoursWrite_halted (r : RtcState) (v : Byte) : (r.hoursWrite v).halted = r.halted := rfl
@[simp] theorem RtcState.hoursWrite_mode12 (r : RtcState) (v : Byte) : (r.hoursWrite v).mode12 = modeBit v := rfl

end Sys2Proof.Machine
end

