-- ==== Sys2Proof/Laws/Ops.lean ====
section
/-! SUPPORT. What each shared operation can do, said once: the preconditions, the ends of an operation, the dispatch to
a device, the actuator records with their form, and the times of the host. -/

namespace Sys2Proof.Machine

variable {Ident : Type}

/-! ## The actuator records -/

section records

variable [DecidableEq Ident]

/-- Read after write. -/
@[simp] theorem PwmMap.find_put_self (id : Ident) (r : PwmRec) (m : PwmMap Ident) :
    PwmMap.find id (PwmMap.put id r m) = some r := by
  induction m with
  | nil => simp [PwmMap.put, PwmMap.find]
  | cons e rest ih =>
    obtain ⟨k, q⟩ := e
    simp only [PwmMap.put]
    split
    · simp [PwmMap.find]
    · rename_i h; simp [PwmMap.find, h, ih]

/-- A write leaves every other actuator alone. -/
theorem PwmMap.find_put_of_ne {id k : Ident} (h : k ≠ id) (r : PwmRec) (m : PwmMap Ident) :
    PwmMap.find k (PwmMap.put id r m) = PwmMap.find k m := by
  induction m with
  | nil => simp [PwmMap.put, PwmMap.find, h]
  | cons e rest ih =>
    obtain ⟨j, q⟩ := e
    simp only [PwmMap.put]
    split
    · rename_i e; subst e; simp [PwmMap.find, h]
    · simp [PwmMap.find, ih]

/-- The records after a write: the written one, and else records that were there. -/
theorem PwmMap.mem_put {id : Ident} {r : PwmRec} {m : PwmMap Ident} {e : Ident × PwmRec}
    (h : e ∈ PwmMap.put id r m) : e = (id, r) ∨ e ∈ m := by
  induction m with
  | nil => simpa [PwmMap.put] using h
  | cons e' rest ih =>
    obtain ⟨k, q⟩ := e'
    simp only [PwmMap.put] at h
    split at h
    · simp only [List.mem_cons] at h ⊢; tauto
    · simp only [List.mem_cons] at h ⊢
      rcases h with h | h
      · exact Or.inr (Or.inl h)
      · exact (ih h).imp_right Or.inr

/-- A write keeps the form. -/
theorem PwmMap.wf_put {m : PwmMap Ident} (h : PwmMap.wf m = true) (id : Ident) (r : PwmRec) :
    PwmMap.wf (PwmMap.put id r m) = true := by
  simp only [PwmMap.wf, decide_eq_true_eq] at h ⊢
  induction m with
  | nil => simp [PwmMap.put]
  | cons e rest ih =>
    obtain ⟨k, q⟩ := e
    simp only [List.map_cons, List.nodup_cons] at h
    simp only [PwmMap.put]
    split
    · rename_i e; subst e; simpa using h
    · rename_i hk
      simp only [List.map_cons, List.nodup_cons]
      refine ⟨fun hm => ?_, ih h.2⟩
      obtain ⟨e, he, rfl⟩ := List.mem_map.1 hm
      rcases PwmMap.mem_put he with rfl | he
      · exact hk rfl
      · exact h.1 (List.mem_map_of_mem he)

/-- Identifiers are only compared: renamed, others to others, the look-up finds the same record (R11). -/
theorem PwmMap.find_rename {Other : Type} [DecidableEq Other] (f : Ident → Other) (id : Ident) {m : PwmMap Ident}
    (h : ∀ e ∈ m, f id = f e.1 → id = e.1) :
    PwmMap.find (f id) (m.map fun e => (f e.1, e.2)) = PwmMap.find id m := by
  induction m with
  | nil => rfl
  | cons e rest ih =>
    obtain ⟨k, r⟩ := e
    have ih := ih fun e he => h e (List.mem_cons_of_mem _ he)
    simp only [List.map_cons, PwmMap.find, ih]
    by_cases e : id = k
    · simp [e]
    · rw [if_neg e, if_neg fun x => e (h _ List.mem_cons_self x)]

/-- Renamed, a write writes the same record (R11). -/
theorem PwmMap.put_rename {Other : Type} [DecidableEq Other] (f : Ident → Other) (id : Ident) (r : PwmRec)
    {m : PwmMap Ident} (h : ∀ e ∈ m, f id = f e.1 → id = e.1) :
    PwmMap.put (f id) r (m.map fun e => (f e.1, e.2)) = (PwmMap.put id r m).map fun e => (f e.1, e.2) := by
  induction m with
  | nil => rfl
  | cons e rest ih =>
    obtain ⟨k, q⟩ := e
    have ih := ih fun e he => h e (List.mem_cons_of_mem _ he)
    simp only [List.map_cons, PwmMap.put, ih]
    by_cases e : id = k
    · simp [e]
    · rw [if_neg e, if_neg fun x => e (h _ List.mem_cons_self x), List.map_cons]

/-- A change of the records that keeps the identifiers keeps the form. -/
theorem PwmMap.wf_map {m : PwmMap Ident} (h : PwmMap.wf m = true) (f : PwmRec → PwmRec) :
    PwmMap.wf (m.map fun e => (e.1, f e.2)) = true := by
  simpa [PwmMap.wf, List.map_map, Function.comp_def] using h

/-- What an actuator's record is after every record was changed. -/
theorem PwmMap.find_map (m : PwmMap Ident) (f : PwmRec → PwmRec) (id : Ident) :
    PwmMap.find id (m.map fun e => (e.1, f e.2)) = (PwmMap.find id m).map f := by
  induction m with
  | nil => rfl
  | cons e rest ih =>
    obtain ⟨k, q⟩ := e
    simp only [List.map_cons, PwmMap.find]
    split
    · rfl
    · exact ih

/-- A record that is found is in the list. -/
theorem PwmMap.mem_of_find {m : PwmMap Ident} {id : Ident} {r : PwmRec} (h : PwmMap.find id m = some r) :
    (id, r) ∈ m := by
  induction m with
  | nil => simp [PwmMap.find] at h
  | cons e rest ih =>
    obtain ⟨k, q⟩ := e
    simp only [PwmMap.find] at h
    split at h
    · rename_i e; subst e; simp_all
    · exact List.mem_cons_of_mem _ (ih h)

end records

/-! ## The device arena -/

@[simp] theorem Block.device_setDevice_self (b : Block Ident) (h : Handle) (d : Device) (x : Device)
    (hx : b.device h = some x) : (b.setDevice h d).device h = some d := by
  have : h < b.devices.length := by
    simpa [Block.device] using (List.getElem?_eq_some_iff.1 hx).1
  simp [Block.device, Block.setDevice, this]

theorem Block.device_setDevice_of_ne (b : Block Ident) {h k : Handle} (d : Device) (hk : k ≠ h) :
    (b.setDevice h d).device k = b.device k := by
  simp [Block.device, Block.setDevice, Ne.symm hk]

/-- Putting back the device that is there changes nothing. -/
theorem Block.setDevice_same {b : Block Ident} {h : Handle} {d : Device} (hd : b.device h = some d) :
    b.setDevice h d = b := by
  have hs : b.devices.set h d = b.devices := by
    apply List.ext_getElem?
    intro k
    rw [List.getElem?_set]
    split
    · rename_i e; subst e
      have : h < b.devices.length := (List.getElem?_eq_some_iff.1 hd).1
      simp only [this, if_true]
      exact hd.symm
    · rfl
  simp [Block.setDevice, hs]

/-- What the dispatch of a device operation can do (40_bus.md R147). -/
theorem Block.onDevice_cases {α : Type} (b : Block Ident) (h : Handle) (rule : RtcState → RtcState × α) :
    (b.device h = none ∧ b.onDevice h rule = .error (.refuse .unknownHandle)) ∨
    (b.device h = some .other ∧ b.onDevice h rule = .error (.refuse .unmodelledDevice)) ∨
    (∃ r, b.device h = some (.rtc r) ∧ b.onDevice h rule = .ok (b.setDevice h (.rtc (rule r).1), (rule r).2)) := by
  unfold Block.onDevice
  rcases hd : b.device h with _ | (r | _) <;> simp

/-- The dispatch to an RTC. -/
theorem Block.onDevice_rtc {α : Type} {b : Block Ident} {h : Handle} {r : RtcState} (rule : RtcState → RtcState × α)
    (hd : b.device h = some (.rtc r)) :
    b.onDevice h rule = .ok (b.setDevice h (.rtc (rule r).1), (rule r).2) := by
  simp [Block.onDevice, hd]

/-! ## The ends of an operation -/

/-- An operation of the setup phase of a live machine. -/
theorem State.setup_live {s : State Ident} (h : s.live) (rule : Block Ident → Except Stop (Block Ident × Response)) :
    s.setup rule = .next (s.finish (rule s.block)) := by
  simp [State.setup, State.precheck, h.1, h.2]

/-- An operation of any other kind of a live machine. -/
theorem State.steady_live {s : State Ident} (h : s.live) (rule : Block Ident → Except Stop (Block Ident × Response)) :
    s.steady rule = .next (s.enterSteady.finish (rule s.enterSteady.block)) := by
  simp [State.steady, State.precheck, h.1, h.2]

/-- What the preconditions let through (R140): a next state comes from a machine that goes on, or is the machine itself,
refused before. -/
theorem State.precheck_next {s t : State Ident} {go : Result Ident} (h : s.precheck go = .next t) :
    (s.live ∧ go = .next t) ∨ (s.block.cfgError = none ∧ s.block.refused ≠ none ∧ t = s) := by
  unfold State.precheck at h
  rcases hc : s.block.cfgError with _ | c <;> rw [hc] at h
  · rcases hr : s.block.refused with _ | q <;> rw [hr] at h
    · exact Or.inl ⟨⟨hc, hr⟩, h⟩
    · cases h; exact Or.inr ⟨rfl, by simp, rfl⟩
  · simp at h

/-! ## The host's times -/

/-- The time of a higher count is later. -/
theorem hostTimes_mono (hf : 0 < Config.fCpu) {c d : Nat} (h : c ≤ d) :
    hostMillis c ≤ hostMillis d ∧ hostMicros c ≤ hostMicros d := by
  have h' : (c : Rat) ≤ d := by exact_mod_cast h
  unfold hostMillis hostMicros
  constructor <;> gcongr

/-- With a positive clock frequency the times of one counter do not decrease: of the duty of R258 the counter is the
stronger half. -/
theorem timesRise_of_fromOneCounter (hf : 0 < Config.fCpu) {ops : List (HostOp Ident)} (h : fromOneCounter ops) :
    timesRise ops := by
  obtain ⟨cycles, hp, hc⟩ := h
  simp only [timesRise, List.pairwise_filterMap, ← List.pairwise_and_iff]
  induction hc with
  | nil => exact List.Pairwise.nil
  | @cons op c rest cs h0 hr ih =>
    rw [List.pairwise_cons] at hp ⊢
    refine ⟨fun q hq => ?_, ih hp.2⟩
    obtain ⟨n, hn, rfl⟩ := List.mem_iff_getElem.1 hq
    have hlen := hr.length_eq
    have h1 := hr.get hn (hlen ▸ hn)
    have hm := hostTimes_mono hf (hp.1 _ (List.getElem_mem (hlen ▸ hn)))
    simp only [List.get_eq_getElem] at h1
    exact ⟨fun t ht u hu => by rw [h0.1 t ht, h1.1 u hu]; exact hm.1,
      fun t ht u hu => by rw [h0.2 t ht, h1.2 u hu]; exact hm.2⟩

end Sys2Proof.Machine
end

