-- ==== Sys2Proof/Laws/PerInstr.lean ====
section
/-! SUPPORT. What holds of every operation as syntax, one lemma a constructor: its word belongs to a row of the opcode
table, and that row builds the operation from it (30_encoding.md R103 to R105). -/

namespace Sys2Proof.Laws

set_option Elab.async false

/-- The word of a well-formed operation belongs to a row of the table that builds the operation from it. -/
def InItsRow.Statement (i : Instr) : Prop :=
  i.wf = true → ∃ r ∈ opTable, r.owns (encode i) = true ∧ r.build (encode i) = i

/-- The statement for one row, checked on the row. -/
theorem InItsRow.of_row {i : Instr} (r : OpRow) (hr : r ∈ opTable)
    (h : r.owns (encode i) = true ∧ r.build (encode i) = i) : InItsRow.Statement i :=
  fun _ => ⟨r, hr, h⟩

theorem InItsRow.busRegister (a : Int) : InItsRow.Statement (.busRegister a) := by
  intro h
  have h' : 0 ≤ a ∧ a ≤ 127 := by simpa [Instr.wf] using h
  obtain ⟨n, rfl⟩ := Int.eq_ofNat_of_zero_le h'.1
  have hn : n < 128 := by omega
  refine ⟨opTable[0], List.getElem_mem _, ?_⟩
  clear h h'
  revert n
  decide +kernel

theorem InItsRow.busBegin (a : Addr7) (w : Bool) : InItsRow.Statement (.busBegin a w) :=
  InItsRow.of_row opTable[1] (List.getElem_mem _) (by revert a w; decide +kernel)

theorem InItsRow.busWrite (v : Byte) : InItsRow.Statement (.busWrite v) :=
  InItsRow.of_row opTable[2] (List.getElem_mem _) (by revert v; decide +kernel)

theorem InItsRow.busRead (ack : Bool) : InItsRow.Statement (.busRead ack) :=
  InItsRow.of_row opTable[3] (List.getElem_mem _) (by revert ack; decide +kernel)

theorem InItsRow.busEnd : InItsRow.Statement .busEnd :=
  InItsRow.of_row opTable[4] (List.getElem_mem _) (by decide +kernel)

theorem InItsRow.devTryconnect (a : Addr7) (w : Bool) : InItsRow.Statement (.devTryconnect a w) :=
  InItsRow.of_row opTable[5] (List.getElem_mem _) (by revert a w; decide +kernel)

theorem InItsRow.devReceive (v : Byte) : InItsRow.Statement (.devReceive v) :=
  InItsRow.of_row opTable[6] (List.getElem_mem _) (by revert v; decide +kernel)

theorem InItsRow.devProduce (ack : Bool) : InItsRow.Statement (.devProduce ack) :=
  InItsRow.of_row opTable[7] (List.getElem_mem _) (by revert ack; decide +kernel)

theorem InItsRow.devDisconnect : InItsRow.Statement .devDisconnect :=
  InItsRow.of_row opTable[8] (List.getElem_mem _) (by decide +kernel)

theorem InItsRow.rtcQuery : InItsRow.Statement .rtcQuery :=
  InItsRow.of_row opTable[9] (List.getElem_mem _) (by decide +kernel)

theorem InItsRow.rtcSettime : InItsRow.Statement .rtcSettime :=
  InItsRow.of_row opTable[10] (List.getElem_mem _) (by decide +kernel)

theorem InItsRow.pwmPin (level : Bool) : InItsRow.Statement (.pwmPin level) :=
  InItsRow.of_row opTable[11] (List.getElem_mem _) (by revert level; decide +kernel)

theorem InItsRow.pwmResetall : InItsRow.Statement .pwmResetall :=
  InItsRow.of_row opTable[12] (List.getElem_mem _) (by decide +kernel)

end Sys2Proof.Laws
end

