-- ==== Sys2Proof/Laws/Registers.lean ====
section
/-! SUPPORT. The register file: what is read after the time registers are written, after one byte is written, and after
construction. -/

namespace Sys2Proof.Machine

/-- Read after write, at the offset written (20_memory.md R74). -/
@[simp] theorem RtcState.read_write_self (r : RtcState) (p : Ptr) (v : Byte) : (r.write p v).read p = v := by
  simp [RtcState.read, RtcState.write]

/-- A write leaves every other offset alone. -/
theorem RtcState.read_write_of_ne (r : RtcState) {p q : Ptr} (v : Byte) (h : q ≠ p) :
    (r.write p v).read q = r.read q := by
  have : p.val ≠ q.val := fun e => h (Fin.ext e.symm)
  simp [RtcState.read, RtcState.write, this]

/-- Every offset after the time registers are written: 0x00..0x06 are the new ones, the others stay (R185). -/
theorem getElem_writeTimeBytes (regs : Vector Byte 64) (b : Vector Byte 7) (i : Nat) (h : i < 64) :
    (writeTimeBytes regs b)[i] = if h7 : i < 7 then b[i] else regs[i] := by
  simp only [writeTimeBytes, regSeconds, regMinutes, regHours, regWeekday, regDate, regMonth, regYear,
    Vector.getElem_set]
  by_cases h7 : i < 7
  · interval_cases i <;> simp
  · have : i ≠ 0 ∧ i ≠ 1 ∧ i ≠ 2 ∧ i ≠ 3 ∧ i ≠ 4 ∧ i ≠ 5 ∧ i ≠ 6 := by omega
    simp [h7, Ne.symm this.1, Ne.symm this.2.1, Ne.symm this.2.2.1, Ne.symm this.2.2.2.1, Ne.symm this.2.2.2.2.1,
      Ne.symm this.2.2.2.2.2.1, Ne.symm this.2.2.2.2.2.2]

/-- Writing the time registers twice leaves the second. -/
theorem writeTimeBytes_twice (regs : Vector Byte 64) (b c : Vector Byte 7) :
    writeTimeBytes (writeTimeBytes regs b) c = writeTimeBytes regs c := by
  ext i h
  simp only [getElem_writeTimeBytes]
  split <;> rfl

/-- The second of the minute is a second of one. -/
theorem secondOfDay_mod_60_lt (inst : Millis) : secondOfDay inst % 60 < 60 := Nat.mod_lt _ (by decide)

/-- The second of the day is below a day. -/
theorem secondOfDay_lt (inst : Millis) : secondOfDay inst < 86400 := by
  unfold secondOfDay; omega

/-- The hour of the day is an hour of one. -/
theorem hourOfDay_lt (inst : Millis) : secondOfDay inst / 3600 < 24 := by
  have := secondOfDay_lt inst; omega

/-- The halt bit of a materialized seconds register is the halt flag (R185). -/
theorem haltBit_timeBytes (halted mode12 : Bool) (inst : Millis) :
    haltBit (timeBytes halted mode12 inst)[0] = halted := by
  simpa [timeBytes] using haltBit_encSecond halted (secondOfDay_mod_60_lt inst)

/-- The mode bit of a materialized hours register is the hour mode (R185). -/
theorem modeBit_timeBytes (halted mode12 : Bool) (inst : Millis) :
    modeBit (timeBytes halted mode12 inst)[2] = mode12 := by
  simpa [timeBytes] using modeBit_encHour mode12 (hourOfDay_lt inst)

end Sys2Proof.Machine
end

