-- ==== Sys2Proof/Laws/Rules.lean ====
section
/-! SUPPORT. What the operations' rules can do, said once for all thirteen: to the marks, to the Bus, to each device, to
the actuator records. The invariants and the frames of the machine follow from these. -/

namespace Sys2Proof.Machine

variable {Ident : Type}

/-- The rule of each operation, by its side operands. -/
def ruleOf [DecidableEq Ident] (i : Instr) (o : SideOperands Ident) (b : Block Ident) :
    Except Stop (Block Ident × Response) :=
  match i with
  | .busRegister a => b.register a o.h
  | .busBegin a w => b.startTransaction a w
  | .busWrite v => b.writeByte v o.t
  | .busRead ack => b.readByte ack o.t
  | .busEnd => b.endTransaction
  | .devTryconnect a w => answer .ack (b.onDevice o.h (RtcState.tryConnect a w))
  | .devReceive v => answer .ack (b.onDevice o.h (RtcState.receiveByte v o.t))
  | .devProduce ack => answer .byte (b.onDevice o.h (RtcState.produceByte ack o.t))
  | .devDisconnect => answer (fun _ => .unit) (b.onDevice o.h RtcState.disconnect)
  | .rtcQuery => b.onDevice o.h (RtcState.query o.t)
  | .rtcSettime => b.onDevice o.h (RtcState.settime o.t o.w)
  | .pwmPin level => .ok (b.pinLevel o.id level o.now, .unit)
  | .pwmResetall => .ok (b.resetAll, .unit)

/-- The machine an operation's rule starts from: every operation but a registration ends the setup phase (R270). -/
def entry (i : Instr) (s : State Ident) : State Ident :=
  match i with
  | .busRegister _ => s
  | .busBegin _ _ | .busWrite _ | .busRead _ | .busEnd | .devTryconnect _ _ | .devReceive _ | .devProduce _
  | .devDisconnect | .rtcQuery | .rtcSettime | .pwmPin _ | .pwmResetall => s.enterSteady

/-- The machine the host runs is the machine over `ActuatorId` (R11). -/
theorem exec_eq_perform (i : Instr) (s : State) : exec i s = perform i s := by cases i <;> rfl

/-- Every operation is its rule under the preconditions of R140, for any type of identifiers. -/
theorem perform_eq [DecidableEq Ident] (i : Instr) (s : State Ident) :
    perform i s = s.precheck (.next ((entry i s).finish (ruleOf i s.operands (entry i s).block))) := by
  cases i <;> rfl

theorem exec_eq (i : Instr) (s : State) :
    exec i s = s.precheck (.next ((entry i s).finish (ruleOf i s.operands (entry i s).block))) := by
  rw [exec_eq_perform, perform_eq]

/-- An operation of a live machine. -/
theorem exec_live (i : Instr) {s : State} (h : s.live) :
    exec i s = .next ((entry i s).finish (ruleOf i s.operands (entry i s).block)) := by
  rw [exec_eq]; simp [State.precheck, h.1, h.2]

/-- What a next state of an operation is: the outcome of its rule, or the machine itself, refused before. -/
theorem exec_next {i : Instr} {s t : State} (h : exec i s = .next t) :
    (s.live ∧ t = (entry i s).finish (ruleOf i s.operands (entry i s).block)) ∨
    (s.block.cfgError = none ∧ s.block.refused ≠ none ∧ t = s) := by
  rw [exec_eq] at h
  rcases State.precheck_next h with ⟨hl, h⟩ | h
  · cases h; exact Or.inl ⟨hl, rfl⟩
  · exact Or.inr h

@[simp] theorem entry_bus (i : Instr) (s : State Ident) : (entry i s).block.bus = s.block.bus := by cases i <;> rfl
@[simp] theorem entry_devices (i : Instr) (s : State Ident) : (entry i s).block.devices = s.block.devices := by
  cases i <;> rfl
@[simp] theorem entry_pwm (i : Instr) (s : State Ident) : (entry i s).block.pwm = s.block.pwm := by cases i <;> rfl
@[simp] theorem entry_cfgError (i : Instr) (s : State Ident) : (entry i s).block.cfgError = s.block.cfgError := by
  cases i <;> rfl
@[simp] theorem entry_refused (i : Instr) (s : State Ident) : (entry i s).block.refused = s.block.refused := by
  cases i <;> rfl
@[simp] theorem entry_pending (i : Instr) (s : State Ident) : (entry i s).pending = s.pending := by cases i <;> rfl
@[simp] theorem entry_operands (i : Instr) (s : State Ident) : (entry i s).operands = s.operands := by cases i <;> rfl
@[simp] theorem entry_responses (i : Instr) (s : State Ident) :
    (entry i s).responses = s.responses := by cases i <;> rfl

/-- The three ends of an operation, as the block after it. -/
theorem finish_block (s : State Ident) (x : Except Stop (Block Ident × Response)) :
    (∃ b r, x = .ok (b, r) ∧ (s.finish x).block = b) ∨
    (∃ q, x = .error (.refuse q) ∧ (s.finish x).block = { s.block with refused := some q }) ∨
    (∃ c, x = .error (.raise c) ∧ (s.finish x).block = { s.block with cfgError := some c }) := by
  rcases x with (q | c) | ⟨b, r⟩
  · exact Or.inr (Or.inl ⟨q, rfl, rfl⟩)
  · exact Or.inr (Or.inr ⟨c, rfl, rfl⟩)
  · exact Or.inl ⟨b, r, rfl, rfl⟩

/-- What the rule of a byte-level operation makes of the RTC it reaches. -/
def rtcAfter (i : Instr) (o : SideOperands Ident) (r r' : RtcState) : Prop :=
  match i with
  | .busRegister _ | .pwmPin _ | .pwmResetall => r' = r
  | .busBegin _ _ | .busEnd | .devTryconnect _ _ | .devDisconnect =>
    r' = r ∨ r' = { r with ptrLoaded := false }
  | .busWrite v | .devReceive v => r' = (r.receiveByte v o.t).1
  | .busRead ack | .devProduce ack => r' = (r.produceByte ack o.t).1
  | .rtcQuery => r' = r.derive o.t
  | .rtcSettime => r' = (r.settime o.t o.w).1

/-- The change of one device under an operation: none, or an RTC's by its rule. -/
def deviceAfter (i : Instr) (o : SideOperands Ident) (d d' : Option Device) : Prop :=
  d' = d ∨ ∃ r r', d = some (.rtc r) ∧ d' = some (.rtc r') ∧ rtcAfter i o r r'

/-- What a completed dispatch did: the RTC at the handle changed by the rule, nothing else. -/
theorem onDevice_ok {α : Type} {b b' : Block Ident} {h : Handle} {rule : RtcState → RtcState × α} {x : α}
    (e : b.onDevice h rule = .ok (b', x)) :
    ∃ r, b.device h = some (.rtc r) ∧ b' = b.setDevice h (.rtc (rule r).1) ∧ x = (rule r).2 := by
  rcases b.onDevice_cases h rule with ⟨_, e'⟩ | ⟨_, e'⟩ | ⟨r, hd, e'⟩ <;> rw [e'] at e
  · cases e
  · cases e
  · cases e; exact ⟨r, hd, rfl, rfl⟩

/-- What a completed dispatch answers. -/
theorem answer_ok {α : Type} {wrap : α → Response} {x : Except Stop (Block Ident × α)} {b : Block Ident} {r : Response}
    (e : answer wrap x = .ok (b, r)) : ∃ y, x = .ok (b, y) ∧ r = wrap y := by
  rcases x with e' | ⟨b', y⟩
  · cases e
  · cases e; exact ⟨y, rfl, rfl⟩

/-- What releasing the selected device did (R142, R145). -/
theorem release_ok {b b' : Block Ident} (e : b.release = .ok b') :
    (b.bus.selected = none ∧ b' = b) ∨
    ∃ h r, b.bus.selected = some h ∧ b.device h = some (.rtc r) ∧
      b' = (b.setDevice h (.rtc { r with ptrLoaded := false })).select none := by
  unfold Block.release at e
  rcases hs : b.bus.selected with _ | h <;> rw [hs] at e
  · cases e; exact Or.inl ⟨rfl, rfl⟩
  · right
    rcases b.onDevice_cases h RtcState.disconnect with ⟨_, e'⟩ | ⟨_, e'⟩ | ⟨r, hd, e'⟩ <;> simp only [e'] at e
    · cases e
    · cases e
    · cases e; exact ⟨h, r, rfl, hd, rfl⟩

/-- What looking up a START's address did (R142). -/
theorem connect_ok {b b' : Block Ident} {a : Addr7} {w : Bool} {x : Response} (e : b.connect a w = .ok (b', x)) :
    (b' = b ∧ x = .ack false) ∨
    ∃ h r, b.bound a = some h ∧ b.device h = some (.rtc r) ∧ a = r.addr ∧
      b' = (b.setDevice h (.rtc { r with ptrLoaded := false })).select (some h) ∧ x = .ack true := by
  unfold Block.connect at e
  rcases hb : b.bound a with _ | h <;> rw [hb] at e
  · cases e; exact Or.inl ⟨rfl, rfl⟩
  · rcases b.onDevice_cases h (RtcState.tryConnect a w) with ⟨_, e'⟩ | ⟨_, e'⟩ | ⟨r, hd, e'⟩ <;>
      simp only [e'] at e
    · cases e
    · cases e
    · by_cases ha : a = r.addr
      · simp [RtcState.tryConnect, ha] at e
        obtain ⟨rfl, rfl⟩ := e
        exact Or.inr ⟨h, r, rfl, hd, ha, rfl, rfl⟩
      · simp [RtcState.tryConnect, ha, Block.setDevice_same hd] at e
        exact Or.inl ⟨e.1.symm, e.2.symm⟩

/-- What a START did: a release and then a look-up (R142). -/
theorem startTransaction_ok {b b' : Block Ident} {a : Addr7} {w : Bool} {x : Response}
    (e : b.startTransaction a w = .ok (b', x)) : ∃ m, b.release = .ok m ∧ m.connect a w = .ok (b', x) := by
  unfold Block.startTransaction at e
  rcases hr : b.release with q | m <;> rw [hr] at e
  · cases e
  · exact ⟨m, rfl, e⟩

/-- What a STOP did (R145). -/
theorem endTransaction_ok {b b' : Block Ident} {x : Response} (e : b.endTransaction = .ok (b', x)) :
    b.release = .ok b' ∧ x = .unit := by
  unfold Block.endTransaction at e
  rcases hr : b.release with q | m <;> rw [hr] at e
  · cases e
  · cases e; exact ⟨rfl, rfl⟩

/-- What a registration did (R141). -/
theorem register_ok {b b' : Block Ident} {a : Int} {h : Handle} {x : Response} (e : b.register a h = .ok (b', x)) :
    b.setupDone = false ∧ ∃ k, busAddr a = some k ∧ b.bound k = none ∧ (b.device h).isSome = true ∧
      b' = b.bind k h ∧ x = .unit := by
  unfold Block.register at e
  split at e
  · cases e
  · rename_i hs
    refine ⟨by simpa using hs, ?_⟩
    split at e
    · cases e
    · rename_i k hk
      split at e
      · cases e
      · rename_i hb
        split at e
        · cases e
        · rename_i d hd
          cases e
          exact ⟨k, hk, hb, by simp [hd], rfl, rfl⟩

/-- What a byte write or read through the Bus did: nothing with nothing selected, else the device's own rule. -/
theorem writeByte_ok {b b' : Block Ident} {v : Byte} {t : Millis} {x : Response} (e : b.writeByte v t = .ok (b', x)) :
    (b.bus.selected = none ∧ b' = b ∧ x = .ack false) ∨
    ∃ h r, b.bus.selected = some h ∧ b.device h = some (.rtc r) ∧
      b' = b.setDevice h (.rtc (r.receiveByte v t).1) := by
  unfold Block.writeByte at e
  split at e
  · cases e; exact Or.inl ⟨by assumption, rfl, rfl⟩
  · obtain ⟨y, e, _⟩ := answer_ok e
    obtain ⟨r, hd, hb, _⟩ := onDevice_ok e
    exact Or.inr ⟨_, r, by assumption, hd, hb⟩

theorem readByte_ok {b b' : Block Ident} {ack : Bool} {t : Millis} {x : Response} (e : b.readByte ack t = .ok (b', x)) :
    (b.bus.selected = none ∧ b' = b ∧ x = .byte Config.idleRead) ∨
    ∃ h r, b.bus.selected = some h ∧ b.device h = some (.rtc r) ∧
      b' = b.setDevice h (.rtc (r.produceByte ack t).1) := by
  unfold Block.readByte at e
  split at e
  · cases e; exact Or.inl ⟨by assumption, rfl, rfl⟩
  · obtain ⟨y, e, _⟩ := answer_ok e
    obtain ⟨r, hd, hb, _⟩ := onDevice_ok e
    exact Or.inr ⟨_, r, by assumption, hd, hb⟩

/-- A device after one RTC is put back. -/
theorem device_setDevice_after {b : Block Ident} {h : Handle} {r r' : RtcState} {i : Instr} {o : SideOperands Ident}
    (hd : b.device h = some (.rtc r)) (hr : rtcAfter i o r r') (k : Handle) :
    deviceAfter i o (b.device k) ((b.setDevice h (.rtc r')).device k) := by
  by_cases hk : k = h
  · subst hk
    exact Or.inr ⟨r, r', hd, b.device_setDevice_self _ _ _ hd, hr⟩
  · exact Or.inl (b.device_setDevice_of_ne _ hk)

@[simp] theorem Block.device_select (b : Block Ident) (x : Option Handle) (h : Handle) :
    (b.select x).device h = b.device h := rfl
@[simp] theorem Block.bound_select (b : Block Ident) (x : Option Handle) (a : Addr7) :
    (b.select x).bound a = b.bound a := rfl
@[simp] theorem Block.bound_setDevice (b : Block Ident) (h : Handle) (d : Device) (a : Addr7) :
    (b.setDevice h d).bound a = b.bound a := rfl
@[simp] theorem Block.device_bind (b : Block Ident) (k : Addr7) (h : Handle) (j : Handle) :
    (b.bind k h).device j = b.device j := rfl

/-- A registration binds the one address. -/
theorem Block.bound_bind (b : Block Ident) (k : Addr7) (h : Handle) (a : Addr7) :
    (b.bind k h).bound a = if a = k then some h else b.bound a := by
  simp only [Block.bound, Block.bind]
  by_cases e : a = k
  · subst e; simp
  · have : k.val ≠ a.val := fun x => e (Fin.ext x.symm)
    simp [e, this]

/-- The frames of releasing: only the framing of the selected device. -/
theorem release_device {b b' : Block Ident} (e : b.release = .ok b') (k : Handle) :
    b'.device k = b.device k ∨
    ∃ r, b.device k = some (.rtc r) ∧ b'.device k = some (.rtc { r with ptrLoaded := false }) := by
  rcases release_ok e with ⟨_, rfl⟩ | ⟨h, r, _, hd, rfl⟩
  · exact Or.inl rfl
  · by_cases hk : k = h
    · subst hk
      exact Or.inr ⟨r, hd, by simp [b.device_setDevice_self _ _ _ hd]⟩
    · exact Or.inl (by simp [b.device_setDevice_of_ne _ hk])

/-- What a completed operation can do to each device. -/
theorem rule_device [DecidableEq Ident] {i : Instr} {o : SideOperands Ident} {b b' : Block Ident} {x : Response}
    (e : ruleOf i o b = .ok (b', x)) (k : Handle) : deviceAfter i o (b.device k) (b'.device k) := by
  cases i with
  | busRegister a =>
    obtain ⟨_, _, _, _, _, rfl, _⟩ := register_ok e
    exact Or.inl rfl
  | busBegin a w =>
    obtain ⟨m, hm, e⟩ := startTransaction_ok e
    have h1 := release_device hm k
    rcases connect_ok e with ⟨rfl, _⟩ | ⟨h, r, _, hd, _, rfl, _⟩
    · rcases h1 with h1 | ⟨r, h1, h2⟩
      · exact Or.inl h1
      · exact Or.inr ⟨r, _, h1, h2, Or.inr rfl⟩
    · by_cases hk : k = h
      · subst hk
        have h3 : ((m.setDevice k (.rtc { r with ptrLoaded := false })).select (some k)).device k =
            some (.rtc { r with ptrLoaded := false }) := by simp [m.device_setDevice_self _ _ _ hd]
        rcases h1 with h1 | ⟨r1, h1, h2⟩
        · exact Or.inr ⟨r, _, h1 ▸ hd, h3, Or.inr rfl⟩
        · rw [hd] at h2; cases h2
          exact Or.inr ⟨r1, _, h1, h3, Or.inr rfl⟩
      · have h3 : ((m.setDevice h (.rtc { r with ptrLoaded := false })).select (some h)).device k =
            m.device k := by simp [m.device_setDevice_of_ne _ hk]
        rw [h3]
        rcases h1 with h1 | ⟨r, h1, h2⟩
        · exact Or.inl h1
        · exact Or.inr ⟨r, _, h1, h2, Or.inr rfl⟩
  | busWrite v =>
    rcases writeByte_ok e with ⟨_, rfl, _⟩ | ⟨h, r, _, hd, rfl⟩
    · exact Or.inl rfl
    · refine device_setDevice_after hd ?_ k; exact rfl
  | busRead ack =>
    rcases readByte_ok e with ⟨_, rfl, _⟩ | ⟨h, r, _, hd, rfl⟩
    · exact Or.inl rfl
    · refine device_setDevice_after hd ?_ k; exact rfl
  | busEnd =>
    obtain ⟨e, _⟩ := endTransaction_ok e
    rcases release_device e k with h1 | ⟨r, h1, h2⟩
    · exact Or.inl h1
    · exact Or.inr ⟨r, _, h1, h2, Or.inr rfl⟩
  | devTryconnect a w =>
    obtain ⟨y, e, _⟩ := answer_ok e
    obtain ⟨r, hd, rfl, _⟩ := onDevice_ok e
    refine device_setDevice_after hd ?_ k
    by_cases ha : a = r.addr
    · exact Or.inr (by simp [RtcState.tryConnect, ha])
    · exact Or.inl (by simp [RtcState.tryConnect, ha])
  | devReceive v =>
    obtain ⟨y, e, _⟩ := answer_ok e
    obtain ⟨r, hd, rfl, _⟩ := onDevice_ok e
    refine device_setDevice_after hd ?_ k; exact rfl
  | devProduce ack =>
    obtain ⟨y, e, _⟩ := answer_ok e
    obtain ⟨r, hd, rfl, _⟩ := onDevice_ok e
    refine device_setDevice_after hd ?_ k; exact rfl
  | devDisconnect =>
    obtain ⟨y, e, _⟩ := answer_ok e
    obtain ⟨r, hd, rfl, _⟩ := onDevice_ok e
    refine device_setDevice_after hd ?_ k; exact Or.inr rfl
  | rtcQuery =>
    obtain ⟨r, hd, rfl, _⟩ := onDevice_ok e
    refine device_setDevice_after hd ?_ k; exact rfl
  | rtcSettime =>
    obtain ⟨r, hd, rfl, _⟩ := onDevice_ok e
    refine device_setDevice_after hd ?_ k; exact rfl
  | pwmPin level => cases e; exact Or.inl rfl
  | pwmResetall => cases e; exact Or.inl rfl

/-- What a completed operation leaves of the marks and the setup flag, which no rule writes, and of the number of
devices. -/
theorem rule_marks [DecidableEq Ident] {i : Instr} {o : SideOperands Ident} {b b' : Block Ident} {x : Response}
    (e : ruleOf i o b = .ok (b', x)) :
    b'.cfgError = b.cfgError ∧ b'.refused = b.refused ∧ b'.setupDone = b.setupDone ∧
      b'.devices.length = b.devices.length := by
  have hset : ∀ {c : Block Ident} {h : Handle} {d : Device}, (c.setDevice h d).devices.length = c.devices.length := by
    intro c h d; simp
  cases i with
  | busRegister a => obtain ⟨_, _, _, _, _, rfl, _⟩ := register_ok e; simp
  | busBegin a w =>
    obtain ⟨m, hm, hc⟩ := startTransaction_ok e
    rcases release_ok hm with ⟨_, rfl⟩ | ⟨_, _, _, _, rfl⟩ <;>
      rcases connect_ok hc with ⟨rfl, _⟩ | ⟨_, _, _, _, _, rfl, _⟩ <;> simp
  | busWrite v => rcases writeByte_ok e with ⟨_, rfl, _⟩ | ⟨_, _, _, _, rfl⟩ <;> simp
  | busRead ack => rcases readByte_ok e with ⟨_, rfl, _⟩ | ⟨_, _, _, _, rfl⟩ <;> simp
  | busEnd =>
    obtain ⟨e, _⟩ := endTransaction_ok e
    rcases release_ok e with ⟨_, rfl⟩ | ⟨_, _, _, _, rfl⟩ <;> simp
  | devTryconnect a w => obtain ⟨y, e, _⟩ := answer_ok e; obtain ⟨r, _, rfl, _⟩ := onDevice_ok e; simp
  | devReceive v => obtain ⟨y, e, _⟩ := answer_ok e; obtain ⟨r, _, rfl, _⟩ := onDevice_ok e; simp
  | devProduce ack => obtain ⟨y, e, _⟩ := answer_ok e; obtain ⟨r, _, rfl, _⟩ := onDevice_ok e; simp
  | devDisconnect => obtain ⟨y, e, _⟩ := answer_ok e; obtain ⟨r, _, rfl, _⟩ := onDevice_ok e; simp
  | rtcQuery => obtain ⟨r, _, rfl, _⟩ := onDevice_ok e; simp
  | rtcSettime => obtain ⟨r, _, rfl, _⟩ := onDevice_ok e; simp
  | pwmPin level => cases e; simp
  | pwmResetall => cases e; simp

/-- What a completed operation leaves of the Bus and the actuator records: the operation that writes each is named. -/
theorem rule_units [DecidableEq Ident] {i : Instr} {o : SideOperands Ident} {b b' : Block Ident} {x : Response}
    (e : ruleOf i o b = .ok (b', x)) :
    ((∃ a, i = .busRegister a ∧ b.setupDone = false ∧ ∃ k, busAddr a = some k ∧ b.bound k = none ∧
        (b.device o.h).isSome = true ∧ b' = b.bind k o.h) ∨ b'.bus.map = b.bus.map) ∧
    ((∃ a w, i = .busBegin a w) ∨ i = .busEnd ∨ b'.bus.selected = b.bus.selected) ∧
    ((∃ level, i = .pwmPin level ∧ b' = b.pinLevel o.id level o.now) ∨ (i = .pwmResetall ∧ b' = b.resetAll) ∨
      b'.pwm = b.pwm) := by
  cases i with
  | busRegister a =>
    obtain ⟨hs, k, hk, hb, hd, rfl, _⟩ := register_ok e
    exact ⟨Or.inl ⟨a, rfl, hs, k, hk, hb, hd, rfl⟩, by simp, by simp⟩
  | busBegin a w =>
    obtain ⟨m, hm, hc⟩ := startTransaction_ok e
    rcases release_ok hm with ⟨_, rfl⟩ | ⟨_, _, _, _, rfl⟩ <;>
      rcases connect_ok hc with ⟨rfl, _⟩ | ⟨_, _, _, _, _, rfl, _⟩ <;> simp
  | busWrite v => rcases writeByte_ok e with ⟨_, rfl, _⟩ | ⟨_, _, _, _, rfl⟩ <;> simp
  | busRead ack => rcases readByte_ok e with ⟨_, rfl, _⟩ | ⟨_, _, _, _, rfl⟩ <;> simp
  | busEnd =>
    obtain ⟨e, _⟩ := endTransaction_ok e
    rcases release_ok e with ⟨_, rfl⟩ | ⟨_, _, _, _, rfl⟩ <;> simp
  | devTryconnect a w => obtain ⟨y, e, _⟩ := answer_ok e; obtain ⟨r, _, rfl, _⟩ := onDevice_ok e; simp
  | devReceive v => obtain ⟨y, e, _⟩ := answer_ok e; obtain ⟨r, _, rfl, _⟩ := onDevice_ok e; simp
  | devProduce ack => obtain ⟨y, e, _⟩ := answer_ok e; obtain ⟨r, _, rfl, _⟩ := onDevice_ok e; simp
  | devDisconnect => obtain ⟨y, e, _⟩ := answer_ok e; obtain ⟨r, _, rfl, _⟩ := onDevice_ok e; simp
  | rtcQuery => obtain ⟨r, _, rfl, _⟩ := onDevice_ok e; simp
  | rtcSettime => obtain ⟨r, _, rfl, _⟩ := onDevice_ok e; simp
  | pwmPin level => cases e; exact ⟨Or.inr rfl, Or.inr (Or.inr rfl), Or.inl ⟨level, rfl, rfl⟩⟩
  | pwmResetall => cases e; exact ⟨Or.inr rfl, Or.inr (Or.inr rfl), Or.inr (Or.inl ⟨rfl, rfl⟩)⟩

/-! ## What the rules make of an RTC -/

/-- No operation writes an RTC's configured address (R41). -/
theorem rtcAfter_addr {i : Instr} {o : SideOperands Ident} {r r' : RtcState} (h : rtcAfter i o r r') :
    r'.addr = r.addr := by
  have hd : ∀ (q : RtcState) (t : Millis), (q.derive t).addr = q.addr := by
    intro q t; unfold RtcState.derive; split <;> simp
  cases i with
  | busWrite v | devReceive v =>
    cases h
    unfold RtcState.receiveByte RtcState.writeSideEffect RtcState.secondsWrite
    split <;> (try split) <;> (try split) <;> simp
  | busRead ack | devProduce ack => cases h; unfold RtcState.produceByte; split <;> simp [hd]
  | rtcQuery => cases h; exact hd _ _
  | rtcSettime => cases h; simp [RtcState.settime]
  | busRegister _ | pwmPin _ | pwmResetall => cases h; rfl
  | busBegin _ _ | busEnd | devTryconnect _ _ | devDisconnect => rcases h with rfl | rfl <;> rfl

/-- Materializing keeps the registers of the flags in step with the flags (R185). -/
theorem coherent_materialize (r : RtcState) (inst : Millis) : (r.materialize inst).coherent = true := by
  have h0 : (r.materialize inst).read regSeconds = (timeBytes r.halted r.mode12 inst)[0] := by
    simp [RtcState.read, regSeconds, getElem_writeTimeBytes]
  have h2 : (r.materialize inst).read regHours = (timeBytes r.halted r.mode12 inst)[2] := by
    simp [RtcState.read, regHours, getElem_writeTimeBytes]
  simp [RtcState.coherent, h0, h2, haltBit_timeBytes, modeBit_timeBytes]

/-- Derivation keeps it (R186). -/
theorem coherent_derive {r : RtcState} (h : r.coherent = true) (t : Millis) : (r.derive t).coherent = true := by
  unfold RtcState.derive
  split
  · exact h
  · exact coherent_materialize _ _

/-- The register a write side effect leaves at each offset: the ones it found (R167). -/
@[simp] theorem writeSideEffect_regs (r : RtcState) (p : Ptr) (v : Byte) (t : Millis) :
    (r.writeSideEffect p v t).regs = r.regs := by
  unfold RtcState.writeSideEffect RtcState.secondsWrite
  split
  · split <;> simp
  · split <;> simp

/-- The flags a write side effect leaves: a byte at the seconds sets the halt, one at the hours the mode (R190,
R192). -/
theorem writeSideEffect_flags (r : RtcState) (p : Ptr) (v : Byte) (t : Millis) :
    (r.writeSideEffect p v t).halted = (if p = regSeconds then haltBit v else r.halted) ∧
    (r.writeSideEffect p v t).mode12 = (if p = regHours then modeBit v else r.mode12) := by
  unfold RtcState.writeSideEffect RtcState.secondsWrite
  by_cases h0 : p = regSeconds
  · subst h0
    have : ¬ regSeconds = regHours := by decide
    by_cases hv : haltBit v = true <;> simp [hv, this]
  · by_cases h2 : p = regHours
    · subst h2; simp [h0]
    · simp [h0, h2]

/-- A received byte keeps it: the data byte that lands on a flag's register sets the flag (R190, R192). -/
theorem coherent_receiveByte {r : RtcState} (h : r.coherent = true) (v : Byte) (t : Millis) :
    (r.receiveByte v t).1.coherent = true := by
  simp only [RtcState.coherent, Bool.and_eq_true, beq_iff_eq] at h ⊢
  unfold RtcState.receiveByte
  split
  · have hf := writeSideEffect_flags (r.write r.ptr v) r.ptr v t
    have hr : ∀ p : Ptr, (((r.write r.ptr v).writeSideEffect r.ptr v t).advance).read p =
        (r.write r.ptr v).read p := by intro p; simp [RtcState.read]
    have hw : ∀ p : Ptr, (r.write r.ptr v).read p = if r.ptr = p then v else r.read p := by
      intro p
      by_cases e : r.ptr = p
      · subst e; simp
      · simp [e, RtcState.read_write_of_ne r v (Ne.symm e)]
    simp only [hr, hw, RtcState.advance_halted, RtcState.advance_mode12, hf.1, hf.2, RtcState.write_halted,
      RtcState.write_mode12]
    constructor
    · split <;> [rfl; exact h.1]
    · split <;> [rfl; exact h.2]
  · exact h

/-- Every operation keeps an RTC's flags in step with their register bits (R39, R40). -/
theorem rtcAfter_coherent {i : Instr} {o : SideOperands Ident} {r r' : RtcState} (h : rtcAfter i o r r')
    (hc : r.coherent = true) : r'.coherent = true := by
  cases i with
  | busWrite v | devReceive v => cases h; exact coherent_receiveByte hc _ _
  | busRead ack | devProduce ack =>
    cases h
    unfold RtcState.produceByte
    split
    · exact coherent_derive hc o.t
    · exact coherent_derive hc o.t
  | rtcQuery => cases h; exact coherent_derive hc _
  | rtcSettime => cases h; exact coherent_materialize _ _
  | busRegister _ | pwmPin _ | pwmResetall => cases h; exact hc
  | busBegin _ _ | busEnd | devTryconnect _ _ | devDisconnect => rcases h with rfl | rfl <;> exact hc

/-! ## What the rules make of an actuator's record -/

/-- The angle formula stays in 0..180 (R222). -/
theorem pwmAngle_range (w : Micros) : 0 ≤ pwmAngle w ∧ pwmAngle w ≤ 180 := by
  unfold pwmAngle clamp pwmFullAngle
  exact ⟨le_min (le_max_right _ _) (by norm_num), min_le_right _ _⟩

/-- The initial angle is in 0..180, whatever the open parameter (R43). -/
theorem pwmInitAngle_range : 0 ≤ Config.pwmInitAngle ∧ Config.pwmInitAngle ≤ 180 := by
  unfold Config.pwmInitAngle
  exact ⟨le_min (le_max_right _ _) (by norm_num), min_le_right _ _⟩

/-- A new record is sound (R43, R221). -/
theorem fresh_sound : PwmRec.fresh.sound = true := by
  simp [PwmRec.sound, PwmRec.fresh, pwmInitAngle_range]

/-- A neutral record is sound (R225). -/
theorem neutral_sound (r : PwmRec) : r.neutral.sound = true := by
  simp only [PwmRec.sound, PwmRec.neutral, pwmNeutral]
  norm_num

/-- A pin report keeps a record sound (R224). -/
theorem report_sound {r : PwmRec} (h : r.sound = true) (level : Bool) (now : Micros) :
    (r.report level now).sound = true := by
  simp only [PwmRec.sound, Bool.and_eq_true, decide_eq_true_eq] at h ⊢
  unfold PwmRec.report
  split
  · exact ⟨by simp, h.2⟩
  · refine ⟨by simp, ?_⟩
    unfold PwmRec.angleAtFall
    split
    · exact h.2
    · split
      · exact pwmAngle_range _
      · exact h.2
  · exact h
  · exact h

end Sys2Proof.Machine
end

