-- ==== Sys2Proof/Laws/Step.lean ====
section
/-! SUPPORT. What one step can do, and how a property of the block is carried through it: an operation completes, is
refused or raises, and every other step leaves the block as it is or marks it. -/

namespace Sys2Proof.Machine

/-- A step with an operation pending that decodes. -/
theorem step_decoded {s : State} {op : HostOp} {rest : List HostOp} {i : Instr} (hp : s.pending = op :: rest)
    (hd : decode op.word = .ok i) : step s = exec i (s.take op rest) := by
  simp [step, State.runNext, hp, hd]

/-- What a next state of a step is: the state itself with nothing pending, the execution of the decoded operation, or,
for a word that is no operation, the machine refused before or now. -/
theorem step_next {s t : State} (h : step s = .next t) :
    (s.pending = [] ∧ t = s) ∨
    ∃ op rest, s.pending = op :: rest ∧
      ((∃ i, decode op.word = .ok i ∧ exec i (s.take op rest) = .next t) ∨
       ((∀ i, decode op.word ≠ .ok i) ∧ (t = s.take op rest ∨ t = (s.take op rest).refuse .illegalWord))) := by
  unfold step State.runNext at h
  rcases hp : s.pending with _ | ⟨op, rest⟩
  · simp only [hp] at h; cases h; exact Or.inl ⟨rfl, rfl⟩
  · refine Or.inr ⟨op, rest, rfl, ?_⟩
    simp only [hp] at h
    rcases hd : decode op.word with e | i <;> simp only [hd] at h
    · refine Or.inr ⟨(by intro i hi; cases hi), ?_⟩
      rcases State.precheck_next h with ⟨_, h⟩ | ⟨_, _, h⟩
      · cases h; exact Or.inr rfl
      · exact Or.inl h
    · exact Or.inl ⟨i, rfl, h⟩

/-- An operation whose rule completes, completes. -/
theorem completes_of {i : Instr} {s : State} {b b' : Block} {x : Response} (hl : s.live) (he : (entry i s).block = b)
    (h : ruleOf i s.operands b = .ok (b', x)) : Completes i s b' x := by
  unfold Completes
  rw [exec_live i hl, he, h]
  cases i <;> rfl

/-- An operation whose rule refuses, is refused. -/
theorem refuses_of {i : Instr} {s : State} {b : Block} {q : RefusalReason} (hl : s.live)
    (he : (entry i s).block = b) (h : ruleOf i s.operands b = .error (.refuse q)) : Refuses i s b q := by
  unfold Refuses
  rw [exec_live i hl, he, h]
  subst he
  cases i <;> rfl

/-- A property of the block that the marks, the end of the setup phase and every completed rule keep, every operation
keeps. A rule starts from a block whose setup phase has ended, or is that of a registration. -/
theorem exec_keeps {i : Instr} {s t : State} (P : Block → Prop) (hs : P s.block)
    (hm : ∀ b q, P b → P { b with refused := some q }) (hc : ∀ b c, P b → P { b with cfgError := some c })
    (he : ∀ i (s : State), P s.block → P (entry i s).block)
    (hr : ∀ i o b b' x, P b → (b.setupDone = true ∨ ∃ a, i = .busRegister a) → ruleOf i o b = .ok (b', x) → P b')
    (h : exec i s = .next t) : P t.block := by
  rcases exec_next h with ⟨_, rfl⟩ | ⟨_, _, rfl⟩
  · rcases hx : ruleOf i s.operands (entry i s).block with (q | c) | ⟨b, r⟩
    · exact hm _ _ (he _ _ hs)
    · exact hc _ _ (he _ _ hs)
    · refine hr _ _ _ _ _ (he _ _ hs) ?_ hx
      cases i <;> simp [entry]
  · exact hs

/-- A property of the block as in `exec_keeps` is kept by every step. -/
theorem step_keeps {s t : State} (P : Block → Prop) (h : step s = .next t) (hs : P s.block)
    (hm : ∀ b q, P b → P { b with refused := some q }) (hc : ∀ b c, P b → P { b with cfgError := some c })
    (he : ∀ i (s : State), P s.block → P (entry i s).block)
    (hr : ∀ i o b b' x, P b → (b.setupDone = true ∨ ∃ a, i = .busRegister a) → ruleOf i o b = .ok (b', x) → P b') :
    P t.block := by
  rcases step_next h with ⟨_, rfl⟩ | ⟨op, rest, _, ⟨i, _, h⟩ | ⟨_, rfl | rfl⟩⟩
  · exact hs
  · exact exec_keeps (s := s.take op rest) P hs hm hc he hr h
  · exact hs
  · exact hm _ _ hs

end Sys2Proof.Machine
end

