-- ==== Sys2Proof/Tests/Slice0.lean ====
section
/-! SUPPORT. The model's own tests. Expected values come from the spec: its encodings (30_encoding.md), its opcode table
and its test vectors (95_test_vectors.md, cited by their names). The witnesses at the end show, for each statement with
hypotheses, a state and operands that meet them. -/

namespace Sys2Proof.Tests

set_option Elab.async false

open Sys2Proof Sys2Proof.Machine

/-! ## Small circuits -/

/-- An RTC of the common start state of 95_test_vectors.md, of the given seed. -/
def rtcOf (seed : Millis) : RtcState := RtcState.construct ⟨0x68, seed, 0, 0, fun _ => 0⟩

/-- Seed S30, 2024-02-29T13:45:30. -/
def s30 : RtcState := rtcOf 1709214330000

/-- One device h0, bound at the given address, in steady-state operation. -/
def blockOf (d : Device) (a : Addr7) (selected : Option Handle) : Block :=
  ⟨none, none, true, ⟨(Vector.replicate 128 none).set a (some 0), selected⟩, [d], []⟩

/-- A machine with the given block, time operand and nothing pending. -/
def machine (b : Block) (t : Millis) : State := ⟨b, [], ⟨0, t, 0, 0, 0⟩, []⟩

/-- The RTC r at h0, bound at 0x68, with the given selection and time. -/
def withRtc (r : RtcState) (selected : Option Handle) (t : Millis) : State :=
  machine (blockOf (.rtc r) 0x68 selected) t

/-- A circuit of an RTC h0 and a chip of another family h1, nothing registered, in the setup phase. -/
def setupMachine (h : Handle) : State :=
  { State.construct [.rtc ⟨0x68, 0, 0, 0, fun _ => 0⟩, .other] with operands := ⟨h, 0, 0, 0, 0⟩ }

/-- A machine with one tracked actuator a0. -/
def withPwm (p : PwmRec) (now : Micros) : State :=
  ⟨⟨none, none, true, ⟨Vector.replicate 128 none, none⟩, [], [(0, p)]⟩, [], ⟨0, 0, 0, 0, now⟩, []⟩

/-- A part of the next state. -/
def after {α : Type} (x : Result) (f : State → α) : Option α :=
  match x with
  | .next s => some (f s)
  | .fault _ => none
  | .refused _ => none

/-- The RTC at h0, when there is one. -/
def rtc0 (s : State) : Option RtcState :=
  match s.block.device 0 with
  | some (.rtc r) => some r
  | some .other => none
  | none => none

/-- The first registers of the RTC at h0. -/
def regs0 (n : Nat) (s : State) : List Byte := ((rtc0 s).map fun r => r.regs.toList.take n).getD []

/-- The step answers a next state. -/
def isNext (x : Result) : Bool := (after x fun _ => ()).isSome

/-! ## Well-formedness (30_encoding.md R101, R141): what the 7-bit field cannot hold is refused -/

theorem test_wf_address_above : (Instr.busRegister 200).wf = false := by decide
theorem test_wf_address_128 : (Instr.busRegister 128).wf = false := by decide
theorem test_wf_address_negative : (Instr.busRegister (-1)).wf = false := by decide
theorem test_wf_address_bounds : (Instr.busRegister 0).wf = true ∧ (Instr.busRegister 127).wf = true := by decide

/-! ## The opcode table and the decoder -/

/-- Every row as spec/opcode_table.json has it. -/
theorem test_table : opTable.map (fun r => (r.mnemonic, r.mask.toNat, r.pattern.toNat)) = [
    ("bus.register", 0xFF80FFFF, 0x01000000), ("bus.begin", 0xFF00FFFF, 0x02000000),
    ("bus.write", 0xFFFFFF00, 0x03000000), ("bus.read", 0xFF7FFFFF, 0x04000000),
    ("bus.end", 0xFFFFFFFF, 0x05000000), ("dev.tryconnect", 0xFF00FFFF, 0x10000000),
    ("dev.receive", 0xFFFFFF00, 0x11000000), ("dev.produce", 0xFF7FFFFF, 0x12000000),
    ("dev.disconnect", 0xFFFFFFFF, 0x13000000), ("rtc.query", 0xFFFFFFFF, 0x20000000),
    ("rtc.settime", 0xFFFFFFFF, 0x21000000), ("pwm.pin", 0xFF7FFFFF, 0x30000000),
    ("pwm.resetall", 0xFFFFFFFF, 0x31000000)] := by decide +kernel

/-- No word belongs to two rows (R106). -/
theorem test_rows_disjoint : opTable.Pairwise fun r q => (r.mask &&& q.mask) &&& (r.pattern ^^^ q.pattern) ≠ 0#32 := by
  decide +kernel

/-- L2.1, the Bus words, each written from the fields of R101. -/
theorem test_decode_bus :
    decode (0b00000001#8 ++ 0b01101000#8 ++ 0b00000000#8 ++ 0b00000000#8) = .ok (.busRegister 0x68) ∧
    decode (0b00000010#8 ++ 0b11101000#8 ++ 0b00000000#8 ++ 0b00000000#8) = .ok (.busBegin 0x68 true) ∧
    decode (0b00000010#8 ++ 0b01101000#8 ++ 0b00000000#8 ++ 0b00000000#8) = .ok (.busBegin 0x68 false) ∧
    decode 0x02D00000#32 = .ok (.busBegin 0x50 true) ∧
    decode (0b00000011#8 ++ 0b00000000#8 ++ 0b00000000#8 ++ 0b11010000#8) = .ok (.busWrite 0xD0#8) ∧
    decode (0b00000100#8 ++ 0b10000000#8 ++ 0b00000000#8 ++ 0b00000000#8) = .ok (.busRead true) ∧
    decode 0x04000000#32 = .ok (.busRead false) ∧
    decode (0b00000101#8 ++ 0b00000000#8 ++ 0b00000000#8 ++ 0b00000000#8) = .ok .busEnd :=
  ⟨rfl, rfl, rfl, rfl, rfl, rfl, rfl, rfl⟩

/-- L2.1, the words of the device port. -/
theorem test_decode_device :
    decode (0b00010000#8 ++ 0b11101000#8 ++ 0b00000000#8 ++ 0b00000000#8) = .ok (.devTryconnect 0x68 true) ∧
    decode (0b00010001#8 ++ 0b00000000#8 ++ 0b00000000#8 ++ 0b01000001#8) = .ok (.devReceive 0x41#8) ∧
    decode (0b00010010#8 ++ 0b10000000#8 ++ 0b00000000#8 ++ 0b00000000#8) = .ok (.devProduce true) ∧
    decode (0b00010011#8 ++ 0b00000000#8 ++ 0b00000000#8 ++ 0b00000000#8) = .ok .devDisconnect :=
  ⟨rfl, rfl, rfl, rfl⟩

/-- L2.1, the words of the RTC's query and setter and of the PWM decoder. -/
theorem test_decode_rtc_pwm :
    decode (0b00100000#8 ++ 0b00000000#8 ++ 0b00000000#8 ++ 0b00000000#8) = .ok .rtcQuery ∧
    decode (0b00100001#8 ++ 0b00000000#8 ++ 0b00000000#8 ++ 0b00000000#8) = .ok .rtcSettime ∧
    decode (0b00110000#8 ++ 0b10000000#8 ++ 0b00000000#8 ++ 0b00000000#8) = .ok (.pwmPin true) ∧
    decode 0x30000000#32 = .ok (.pwmPin false) ∧
    decode (0b00110001#8 ++ 0b00000000#8 ++ 0b00000000#8 ++ 0b00000000#8) = .ok .pwmResetall :=
  ⟨rfl, rfl, rfl, rfl, rfl⟩

/-- L2.1, the illegal words, by name. -/
theorem test_decode_illegal :
    decode 0x00000000#32 = .error (.reservedOpcode 0x00#8) ∧ decode 0xFF000000#32 = .error (.reservedOpcode 0xFF#8) ∧
    decode 0x06000000#32 = .error (.reservedOpcode 0x06#8) ∧
    decode 0x05000001#32 = .error (.nonzeroUnusedField 0x05#8) ∧
    decode 0x03000100#32 = .error (.nonzeroUnusedField 0x03#8) ∧
    decode 0x01800000#32 = .error (.nonzeroUnusedField 0x01#8) ∧
    decode 0x04000001#32 = .error (.nonzeroUnusedField 0x04#8) ∧
    decode 0x30010000#32 = .error (.nonzeroUnusedField 0x30#8) :=
  ⟨rfl, rfl, rfl, rfl, rfl, rfl, rfl, rfl⟩

/-- The words of the programs of 95_test_vectors.md, from the encoder. -/
theorem test_encode : encode (.busRegister 0x50) = 0x01500000#32 ∧ encode (.busBegin 0x50 true) = 0x02D00000#32 ∧
    encode (.devTryconnect 0x69 false) = 0x10690000#32 ∧ encode (.devProduce true) = 0x12800000#32 ∧
    encode .pwmResetall = 0x31000000#32 := ⟨rfl, rfl, rfl, rfl, rfl⟩

/-- B5, 91 N18: a registration outside 0..127 has no word, and a program that writes one has no operations. -/
theorem test_no_word : wordOf (.busRegister 200) = none ∧ wordOf (.busRegister (-1)) = none ∧
    wordOf (.busRegister 127) = some 0x017F0000#32 ∧
    assemble 0 [.op { op := .busEnd }, .op { op := .busRegister 200 }] = none := by decide +kernel

/-- The table's words run as the first operation after reset. -/
theorem test_first_step_after_reset : [0x01680000, 0x02E80000, 0x03000030, 0x04800000, 0x05000000, 0x10E80000,
    0x11000041, 0x12800000, 0x13000000, 0x20000000, 0x21000000, 0x30800000, 0x31000000].all (fun w =>
      (decodeTableWord 32 w).isSome && isNext (step (State.reset.withFetchWord 32 w))) = true := by decide +kernel

/-! ## Codecs and the calendar (L1.1, L1.3, L2.4) -/

theorem test_bcd : [0, 7, 10, 32, 59, 99].map dec2bcd = [0x00#8, 0x07#8, 0x10#8, 0x32#8, 0x59#8, 0x99#8] ∧
    [0x7A#8, 0xFF#8, 0x5A#8].map bcd2dec = [80, 165, 60] := by decide +kernel

theorem test_hours : [0, 1, 11, 12, 13, 23].map (encHour · true) = [0x52#8, 0x41#8, 0x51#8, 0x72#8, 0x61#8, 0x71#8] ∧
    [0, 12, 20, 23].map (encHour · false) = [0x00#8, 0x12#8, 0x20#8, 0x23#8] ∧
    [0x40#8, 0x60#8, 0x7F#8].map (decHour · true) = [0, 12, 13] ∧
    [0x3F#8, 0xA3#8].map (decHour · false) = [45, 23] := by decide +kernel

theorem test_dates : [-719468, -1, 0, 10957, 11016, 19782, 20089, 47482, 2932896].map civilFromDays =
    [⟨0, 3, 1⟩, ⟨1969, 12, 31⟩, ⟨1970, 1, 1⟩, ⟨2000, 1, 1⟩, ⟨2000, 2, 29⟩, ⟨2024, 2, 29⟩, ⟨2025, 1, 1⟩, ⟨2100, 1, 1⟩,
      ⟨9999, 12, 31⟩] ∧ daysFromCivil 2024 3 0 = 19782 := by decide +kernel

theorem test_weekdays : [-719468, -1, 0, 10957, 11016, 19782, 20089, 47482, 2932896].map weekday =
    [4, 4, 5, 7, 3, 5, 4, 6, 6] := by decide +kernel

/-! ## Construction -/

/-- The registers after construction under S30. -/
theorem test_construct : s30.regs.toList.take 8 = [0x30#8, 0x45#8, 0x13#8, 0x05#8, 0x29#8, 0x02#8, 0x24#8, 0x00#8] := by
  decide +kernel

/-! ## One step of each operation -/

/-- B1: the binding, and no other entry. -/
theorem test_register : after (exec (.busRegister 0x68) (setupMachine 0))
    (fun s => (s.block.bound 0x68, s.block.bound 0x67, s.responses)) = some (some 0, none, [.unit]) := by decide +kernel

/-- B3, B4, B5, B6: the checks in their order. -/
theorem test_register_checks :
    after (exec (.busRegister 0x68)
        { withRtc s30 none 0 with
          block := { (withRtc s30 none 0).block with setupDone := false }, operands := ⟨9, 0, 0, 0, 0⟩ })
      (·.block.cfgError) = some (some .dupAddr) ∧
    after (exec (.busRegister 0x50) (setupMachine 9)) (·.block.refused) = some (some .unknownHandle) ∧
    after (exec (.busRegister 200) (setupMachine 0)) (·.block.cfgError) = some (some .addrRange) ∧
    after (exec (.busRegister 0x50) (withRtc s30 none 0)) (·.block.refused) = some (some .lateRegister) := by
  decide +kernel

/-- B8: a repeated START keeps the pointer and expects a pointer byte. -/
theorem test_begin : after (exec (.busBegin 0x68 true) (withRtc { s30 with ptr := 5, ptrLoaded := true } (some 0) 0))
    (fun s => (s.responses, s.block.bus.selected, (rtc0 s).map fun r => (r.ptr, r.ptrLoaded))) =
    some ([.ack true], some 0, some (5, false)) := by decide +kernel

/-- B9: a START at an unbound address disconnects the selected device. -/
theorem test_begin_miss :
    after (exec (.busBegin 0x50 true) (withRtc { s30 with ptr := 8, ptrLoaded := true } (some 0) 0))
      (fun s => (s.responses, s.block.bus.selected, (rtc0 s).map fun r => (r.ptr, r.ptrLoaded))) =
    some ([.ack false], none, some (8, false)) := by decide +kernel

/-- L1.4 (a), the third byte: a run write resyncs from the fields the registers hold. -/
theorem test_write_run : after (exec (.busWrite 0x03#8) (withRtc { s30 with ptrLoaded := true } (some 0) 500))
    (fun s => (s.responses, (rtc0 s).map fun r => (r.ptr, r.refWall, r.refInstant, r.halted))) =
    some ([.ack true], some (1, 1709214303000, 500, false)) := by decide +kernel

/-- L1.5: with nothing selected a byte write is a NACK without effect. -/
theorem test_write_miss : after (exec (.busWrite 0x12#8) (withRtc s30 none 0)) (fun s => (s.responses, rtc0 s)) =
    some ([.ack false], some s30) := by decide +kernel

/-- T1: a read at 1999 ms shows 31 seconds. -/
theorem test_read : after (exec (.busRead false) (withRtc s30 (some 0) 1999))
    (fun s => (s.responses, (rtc0 s).map (·.ptr))) = some ([.byte 0x31#8], some 0) := by decide +kernel

/-- L2.3, the wrap vectors: an acknowledged read at 63 leaves the pointer at 0. -/
theorem test_read_wraps : after (exec (.busRead true) (withRtc { s30 with ptr := 63 } (some 0) 0))
    (fun s => (s.responses, (rtc0 s).map (·.ptr))) = some ([.byte 0x00#8], some 0) := by decide +kernel

/-- B10 and the example of R145. -/
theorem test_end : after (exec .busEnd (withRtc { s30 with ptr := 1, ptrLoaded := true } (some 0) 0))
      (fun s => (s.block.bus.selected, (rtc0 s).map fun r => (r.ptr, r.ptrLoaded))) = some (none, some (1, false)) ∧
    after (exec .busEnd (withRtc s30 none 0)) (·.block) = some (withRtc s30 none 0).block := by decide +kernel

/-- D1, D5. -/
theorem test_tryconnect :
    after (exec (.devTryconnect 0x68 true) (withRtc { s30 with ptrLoaded := true } none 0))
      (fun s => (s.responses, (rtc0 s).map (·.ptrLoaded))) = some ([.ack true], some false) ∧
    after (exec (.devTryconnect 0x69 false) (withRtc { s30 with ptrLoaded := true } none 0))
      (fun s => (s.responses, (rtc0 s).map (·.ptrLoaded))) = some ([.ack false], some true) := by decide +kernel

/-- D2: the pointer byte 0x41 loads 1. -/
theorem test_receive_pointer : after (exec (.devReceive 0x41#8) (withRtc s30 none 0))
    (fun s => (s.responses, (rtc0 s).map fun r => (r.ptr, r.ptrLoaded))) = some ([.ack true], some (1, true)) := by
  decide +kernel

/-- The hours write of P4: the byte stands as written and selects the 12-hour mode. -/
theorem test_receive_hours : after (exec (.devReceive 0x71#8) (withRtc { s30 with ptr := 2, ptrLoaded := true } none 0))
    (fun s => (regs0 4 s, (rtc0 s).map fun r => (r.ptr, r.mode12, r.halted))) =
    some ([0x30#8, 0x45#8, 0x71#8, 0x05#8], some (3, true, false)) := by decide +kernel

/-- D8: derivation rewrites the minutes before the byte is taken. -/
theorem test_produce :
    after (exec (.devProduce true) (withRtc { s30 with regs := s30.regs.set 1 0x77#8, ptr := 1 } none 0))
      (fun s => (s.responses, (rtc0 s).map (·.ptr))) = some ([.byte 0x45#8], some 2) := by decide +kernel

/-- L1.2, step 4: a halted clock reads as it was written. -/
theorem test_produce_halted : after (exec (.devProduce false)
    (withRtc { s30 with regs := s30.regs.set 0 0xB1#8, halted := true } none 5000))
    (fun s => (s.responses, regs0 7 s)) =
    some ([.byte 0xB1#8], [0xB1#8, 0x45#8, 0x13#8, 0x05#8, 0x29#8, 0x02#8, 0x24#8]) := by decide +kernel

/-- D4. -/
theorem test_disconnect : after (exec .devDisconnect (withRtc { s30 with ptr := 2, ptrLoaded := true } none 0))
    (fun s => (rtc0 s).map fun r => (r.ptr, r.ptrLoaded)) = some (some (2, false)) := by decide +kernel

/-- The example of R194. -/
theorem test_query : after (exec .rtcQuery (withRtc s30 none 2500)) (·.responses) =
    some [.dateTime ⟨32, 45, 13, 5, 29, 2, 2024, false⟩] := by decide +kernel

/-- T2: the century rolls over in the year register only. -/
theorem test_query_century : after (exec .rtcQuery (withRtc (rtcOf 4102444799000) none 1000))
    (fun s => (s.responses, regs0 7 s)) = some ([.dateTime ⟨0, 0, 0, 6, 1, 1, 2000, false⟩],
      [0x00#8, 0x00#8, 0x00#8, 0x06#8, 0x01#8, 0x01#8, 0x00#8]) := by decide +kernel

/-- T8 and the example of R195; the wall operand is 2000-01-01T00:00:00. -/
theorem test_settime :
    after (exec .rtcSettime { withRtc s30 none 0 with operands := ⟨0, 100, 946684800000, 0, 0⟩ })
      (fun s => (regs0 7 s, (rtc0 s).map fun r => (r.refWall, r.refInstant))) =
    some ([0x00#8, 0x00#8, 0x00#8, 0x07#8, 0x01#8, 0x01#8, 0x00#8], some (946684800000, 100)) := by decide +kernel

/-- T7: on a halted clock the halt bit stays. -/
theorem test_settime_halted : after (exec .rtcSettime
      { withRtc { s30 with regs := s30.regs.set 0 0x80#8, halted := true } none 0 with
        operands := ⟨0, 2000, 946684800000, 0, 0⟩ })
      (fun s => (regs0 4 s, (rtc0 s).map (·.halted))) =
    some ([0x80#8, 0x00#8, 0x00#8, 0x07#8], some true) := by decide +kernel

/-- T3: date 0 of March is the last day of February; T4: month 13 is the January after. -/
theorem test_instant_carries : (DateFields.mk 0 0 10 5 0 3 2024 false).instant = 1709200800000 ∧
    (DateFields.mk 0 0 10 5 15 13 2024 false).instant = 1736935200000 := by decide +kernel

/-- P4 of L2.6: the falling edge of a 1250 pulse publishes 45. -/
theorem test_pin_fall : after (exec (.pwmPin false) (withPwm ⟨true, some 100, 90⟩ 1350)) (·.block.pwm) =
    some [(0, ⟨false, some 100, 45⟩)] := by decide +kernel

/-- P3 and P6 of L2.6: a repeated high is no edge, and a width of 2501 is rejected. -/
theorem test_pin_ignored :
    after (exec (.pwmPin true) (withPwm ⟨true, some 100, 90⟩ 300)) (·.block.pwm) = some [(0, ⟨true, some 100, 90⟩)] ∧
    after (exec (.pwmPin false) (withPwm ⟨true, some 5000, 45⟩ 7501)) (·.block.pwm) =
      some [(0, ⟨false, some 5000, 45⟩)] := by decide +kernel

/-- L2.6: the angles of the admitted widths. -/
theorem test_angles : [500, 1000, 1001, 1250, 1500, 1501, 1750, 2000, 2500].map pwmAngle =
    [0, 0, 9 / 50, 45, 90, 4509 / 50, 135, 180, 180] := by decide +kernel

/-- The example of R225. -/
theorem test_resetall : after (exec .pwmResetall (withPwm ⟨true, some 9000, 180⟩ 0)) (·.block.pwm) =
    some [(0, ⟨false, none, 90⟩)] := by decide +kernel

/-- P6 of L3: after a refusal an operation changes nothing. -/
theorem test_refusal_sticky :
    after (exec (.busWrite 0x00#8) (machine { (withRtc s30 (some 0) 0).block with refused := some .lateRegister } 0))
      (fun s => (s.responses, s.block.refused, (rtc0 s).map (·.ptrLoaded))) =
    some ([], some .lateRegister, some false) := by decide +kernel

/-- R248, R250: a START refused at its new device has not disconnected the old one. -/
theorem test_refused_begin : after (exec (.busBegin 0x50 true)
    (machine ⟨none, none, true, ⟨((Vector.replicate 128 none).set 0x68 (some 0)).set 0x50 (some 1), some 0⟩,
      [.rtc { s30 with ptrLoaded := true }, .other], []⟩ 0))
    (fun s => (s.block.refused, s.block.bus.selected, (rtc0 s).map (·.ptrLoaded))) =
    some (some .unmodelledDevice, some 0, some true) := by decide +kernel

/-- R121, R122: a line and a pseudo-instruction. -/
theorem test_assembler : (AsmLine.text { op := .rtcSettime, w := .iso ⟨2000, 1, 1, 0, 0, 0⟩, ms := some ⟨1005, 1⟩ }) =
      "rtc.settime h0, 2000-01-01T00:00:00 @100.5ms" ∧
    (assemble 7 [.pseudo (.i2cReadreg 0x68 0 2) (some ⟨5, 0⟩)]).map
        (fun ops => ops.map fun q => (q.word, q.operands.t)) =
      some [(0x02E80000#32, 5), (0x03000000#32, 5), (0x02680000#32, 5), (0x04800000#32, 5), (0x04000000#32, 5),
        (0x05000000#32, 5)] := by decide +kernel

/-- R122, R121: lines outside their form have no operations; the first and last month, the leap day and the last second
of a day are in it. -/
theorem test_assembler_form :
    assemble 0 [.pseudo (.i2cRead 0x68 0) none] = none ∧ assemble 0 [.pseudo (.i2cReadreg 0x68 0 0) none] = none ∧
    assemble 0 [.pseudo (.i2cWrite 0x68 []) none] = none ∧
    [IsoDateTime.mk 2025 0 1 0 0 0, ⟨2025, 13, 1, 0, 0, 0⟩, ⟨2025, 2, 29, 0, 0, 0⟩, ⟨2025, 1, 0, 0, 0, 0⟩,
      ⟨2025, 1, 1, 24, 0, 0⟩, ⟨2025, 1, 1, 0, 0, 60⟩, ⟨10000, 1, 1, 0, 0, 0⟩].all (fun d =>
        assemble 0 [.op { op := .rtcSettime, w := .iso d }] == none) = true ∧
    [IsoDateTime.mk 2025 1 1 0 0 0, ⟨2099, 12, 31, 23, 59, 59⟩, ⟨2024, 2, 29, 0, 0, 0⟩].all IsoDateTime.wf = true := by
  decide +kernel

/-! ## The host's duty to use one port (R160, R258) -/

/-- Operations of the direct port on a bound device, as L2.3 has them, keep the duty. -/
theorem test_onePort_direct :
    onePort { withRtc s30 none 0 with
      pending := Claims.ops ⟨0, 0, 0, 0, 0⟩ [.devTryconnect 0x68 true, .devReceive 0x05#8] } := by
  have h : driven 2 { withRtc s30 none 0 with
      pending := Claims.ops ⟨0, 0, 0, 0, 0⟩ [.devTryconnect 0x68 true, .devReceive 0x05#8] } =
      [(0, Port.direct), (0, .direct)] := by decide +kernel
  intro k hk
  have hb : (k, Port.bus) ∈ [(0, Port.direct), (0, .direct)] := h ▸ hk.1
  simp at hb

/-- A list that registers a device and then drives it through both ports breaks it. -/
theorem test_onePort_mixed :
    ¬ onePort { setupMachine 0 with
      pending := Claims.ops ⟨0, 0, 0, 0, 0⟩ [.busRegister 0x68, .busBegin 0x68 true, .devReceive 0x05#8] } :=
  fun h => h 0 (by decide +kernel)

/-! ## The host's duty on times (R102, R258) -/

/-- Bus and PWM operations interleaved, each with the time it carries and 0 for the one it does not, keep the duty. -/
theorem test_timeDuty_interleaved : timeDuty ([⟨encode .busEnd, ⟨0, hostMillis 5, 0, 0, 0⟩⟩,
    ⟨encode (.pwmPin true), ⟨0, 0, 0, 0, hostMicros 7⟩⟩, ⟨encode .pwmResetall, ⟨0, 0, 0, 0, 0⟩⟩] : List HostOp) := by
  refine ⟨⟨List.pairwise_singleton _ _, List.pairwise_singleton _ _⟩, [5, 7, 7], by decide, ?_⟩
  exact .cons ⟨(by rintro _ ⟨⟩; rfl), (by rintro _ ⟨⟩)⟩ (.cons ⟨(by rintro _ ⟨⟩), (by rintro _ ⟨⟩; rfl)⟩
    (.cons ⟨(by rintro _ ⟨⟩), (by rintro _ ⟨⟩)⟩ .nil))

/-- A `t` that goes back breaks it, with a PWM operation between. -/
theorem test_timeDuty_back : ¬ timeDuty ([⟨encode .busEnd, ⟨0, 5, 0, 0, 0⟩⟩,
    ⟨encode (.pwmPin true), ⟨0, 9, 0, 0, 0⟩⟩, ⟨encode .rtcQuery, ⟨0, 4, 0, 0, 0⟩⟩] : List HostOp) :=
  fun h => absurd h.1.1 (by decide +kernel)

/-! ## Other identifiers (R11): strings -/

/-- Two actuators named by strings, one reported: P1 of L2.6. -/
theorem test_named_actuators :
    (match perform (.pwmPin true) (⟨⟨none, none, true, ⟨Vector.replicate 128 none, none⟩, [],
      [("left", ⟨false, none, 90⟩), ("right", ⟨false, none, 90⟩)]⟩, [],
      ⟨0, 0, 0, "right", 100⟩, []⟩ : State String) with
    | .next t => t.block.pwm
    | .fault _ => []
    | .refused _ => []) = [("left", ⟨false, none, 90⟩), ("right", ⟨true, some 100, 90⟩)] := by decide +kernel

/-! ## Witnesses: each statement's hypotheses met together, clause by clause

The states: `idle` with nothing selected, `busy` with h0 selected, `atSetup` before any other operation. -/

def idle : State := withRtc s30 none 0
def busy : State := withRtc s30 (some 0) 0
def atSetup : State := setupMachine 0

/-- The RTC registered at 0x69 instead of its own 0x68, h1 of another family at 0x50 (B7). -/
def mixed (selected : Option Handle) (h : Handle) : State :=
  ⟨⟨none, none, true, ⟨((Vector.replicate 128 none).set 0x69 (some 0)).set 0x50 (some 1), selected⟩,
    [.rtc s30, .other], []⟩, [], ⟨h, 0, 0, 0, 0⟩, []⟩

/-- A machine with an operation pending. -/
def queued (s : State) (w : Word) : State := { s with pending := [⟨w, s.operands⟩] }

/-- A halted RTC whose next data byte goes to the seconds register. -/
def haltedAtSeconds : RtcState := { s30 with regs := s30.regs.set 0 0x80#8, halted := true, ptrLoaded := true }

theorem witness_EncodeThenDecode : (Instr.busRegister 0).wf = true ∧ (Instr.busRegister 127).wf = true ∧
    (Instr.busBegin 127 true).wf = true ∧ (Instr.busWrite 0xFF#8).wf = true := by decide

theorem witness_DecodedWord : decode 0x017F0000#32 = .ok (.busRegister 127) ∧
    decode 0x030000FF#32 = .ok (.busWrite 0xFF#8) :=
  ⟨rfl, rfl⟩

theorem witness_LegalWords :
    ((queued idle 0x05000001#32).pending = [⟨0x05000001#32, idle.operands⟩] ∧ (queued idle 0x05000001#32).live ∧
      (opTable.filter fun r => r.owns 0x05000001#32).length ≠ 1) ∧
    (opField 0x06000000#32).toNat = 0x06 ∧ (opField 0x32000000#32).toNat = 0x32 ∧ (opField 0x00000000#32).toNat = 0 :=
  ⟨⟨rfl, ⟨rfl, rfl⟩, by decide +kernel⟩, by decide, by decide, by decide⟩

theorem witness_StepExecutes :
    ((queued idle 0x05000000#32).pending = [⟨0x05000000#32, idle.operands⟩] ∧ decode 0x05000000#32 = .ok .busEnd) ∧
    decodeTableWord 32 0x31000000 = some .pwmResetall ∧ idle.pending = [] := ⟨⟨rfl, rfl⟩, by decide +kernel, rfl⟩

theorem witness_NoCircuit :
    (queued (idle.raise .dupAddr) 0#32).block.cfgError ≠ none ∧
    (queued (idle.raise .dupAddr) 0#32).pending = [⟨0#32, idle.operands⟩] ∧
    (queued (idle.refuse .lateRegister) 0#32).block.cfgError = none ∧
    (queued (idle.refuse .lateRegister) 0#32).block.refused ≠ none ∧
    (queued (idle.refuse .lateRegister) 0#32).pending = [⟨0#32, idle.operands⟩] :=
  ⟨by decide, rfl, rfl, by decide, rfl⟩

theorem witness_RefusalMark : (queued (idle.refuse .lateRegister) 0x05000000#32).block.cfgError = none ∧
    (queued (idle.refuse .lateRegister) 0x05000000#32).block.refused = some .lateRegister := ⟨rfl, rfl⟩

theorem witness_OneOperation : idle.live := ⟨rfl, rfl⟩

theorem witness_SetupEnds : atSetup.live ∧ (∀ a, Instr.pwmResetall ≠ .busRegister a) ∧
    (isNext (step (queued idle 0x05000000#32)) = true ∧ (queued idle 0x05000000#32).block.setupDone = true) ∧
    isNext (exec (.busRegister 0) atSetup) = true :=
  ⟨⟨rfl, rfl⟩, (fun _ h => by cases h), ⟨by decide +kernel, rfl⟩, by decide +kernel⟩

/-- The four addresses where the clauses meet: -1 and 128 outside, 0 and 127 inside. -/
theorem witness_Register : (idle.live ∧ idle.block.setupDone = true) ∧
    (atSetup.live ∧ atSetup.block.setupDone = false ∧ ((-1 : Int) < 0 ∧ (128 : Int) > 127)) ∧
    ((0 : Int) = ((0 : Addr7).val : Int) ∧ (127 : Int) = ((127 : Addr7).val : Int) ∧
      atSetup.block.bus.map[(0 : Addr7)] = none ∧ atSetup.block.bus.map[(127 : Addr7)] = none ∧
      atSetup.block.device 0 ≠ none ∧ (setupMachine 2).block.device 2 = none) ∧
    (let s := { idle with block := { idle.block with setupDone := false } }
     s.live ∧ s.block.setupDone = false ∧ s.block.bus.map[(0x68 : Addr7)] ≠ none) :=
  ⟨⟨⟨rfl, rfl⟩, rfl⟩, ⟨⟨rfl, rfl⟩, rfl, by decide⟩, by decide +kernel, ⟨rfl, rfl⟩, rfl, by decide +kernel⟩

theorem witness_Released_none : Claims.Released (Claims.entered idle) (Claims.entered idle) := Or.inl ⟨rfl, rfl⟩

theorem witness_Released_some : Claims.Released (Claims.entered busy)
    { Claims.putRtc (Claims.entered busy) 0 { s30 with ptrLoaded := false } with
      bus := { (Claims.entered busy).bus with selected := none } } := Or.inr ⟨0, s30, rfl, rfl, rfl⟩

/-- A miss; a device that does not acknowledge; the device's own address. Both forms of the release are above. -/
theorem witness_Start :
    (idle.live ∧ (Claims.entered idle).bus.map[(0x50 : Addr7)] = none) ∧
    ((mixed none 0).live ∧ (Claims.entered (mixed none 0)).bus.map[(0x69 : Addr7)] = some 0 ∧
      (Claims.entered (mixed none 0)).hasRtc 0 s30 ∧ (0x69 : Addr7) ≠ s30.addr ∧
      Claims.Released (Claims.entered (mixed none 0)) (Claims.entered (mixed none 0))) ∧
    ((Claims.entered idle).bus.map[(0x68 : Addr7)] = some 0 ∧ (Claims.entered idle).hasRtc 0 s30 ∧
      (0x68 : Addr7) = s30.addr) :=
  ⟨⟨⟨rfl, rfl⟩, by decide +kernel⟩, ⟨⟨rfl, rfl⟩, by decide +kernel, rfl, by decide, Or.inl ⟨rfl, rfl⟩⟩,
    by decide +kernel, rfl, by decide⟩

/-- A repeated START to the selected device: the release and the look-up together. -/
theorem witness_Start_repeated : ∃ b r, busy.live ∧ Claims.Released (Claims.entered busy) b ∧
    b.bus.map[(0x68 : Addr7)] = some 0 ∧ b.hasRtc 0 r ∧ (0x68 : Addr7) = r.addr ∧ b.bus.map[(0x50 : Addr7)] = none :=
  ⟨_, _, ⟨rfl, rfl⟩, witness_Released_some, by decide +kernel, rfl, by decide, by decide +kernel⟩

theorem witness_Stop : busy.live ∧ idle.live := ⟨⟨rfl, rfl⟩, rfl, rfl⟩

theorem witness_BusWrite_BusRead : (idle.live ∧ idle.block.bus.selected = none) ∧
    (busy.live ∧ busy.block.bus.selected = some 0 ∧ busy.block.hasRtc 0 s30) :=
  ⟨⟨⟨rfl, rfl⟩, rfl⟩, ⟨rfl, rfl⟩, rfl, rfl⟩

theorem witness_AddressMiss : (idle.live ∧ idle.block.selectionSound ∧ idle.block.bus.map[(0 : Addr7)] = none) ∧
    (busy.live ∧ busy.block.selectionSound ∧ busy.block.bus.map[(127 : Addr7)] = none) :=
  ⟨⟨⟨rfl, rfl⟩, trivial, by decide +kernel⟩, ⟨rfl, rfl⟩,
    (by show busy.block.bound s30.addr = some 0; decide +kernel), by decide +kernel⟩

theorem witness_BusAndDirectPort : busy.block.bus.selected = some busy.operands.h := rfl

theorem witness_BusMap : isNext (step (queued idle 0x05000000#32)) = true ∧
    (queued idle 0x05000000#32).block.bus.map[(0x68 : Addr7)] = some 0 ∧
    (queued idle 0x05000000#32).block.setupDone = true := by decide +kernel

theorem witness_OnlyBeginAndEnd : isNext (exec (.busWrite 0x05#8) busy) = true ∧
    (∀ a w, Instr.busWrite 0x05#8 ≠ .busBegin a w) ∧ Instr.busWrite 0x05#8 ≠ .busEnd :=
  ⟨by decide +kernel, (fun _ _ h => by cases h), by decide⟩

theorem witness_TryConnect : idle.live ∧ idle.block.hasRtc idle.operands.h s30 ∧ (0x68 : Addr7) = s30.addr ∧
    (0x69 : Addr7) ≠ s30.addr := ⟨⟨rfl, rfl⟩, rfl, by decide, by decide⟩

/-- For the statements about one RTC on the direct port: receive, produce, disconnect, query, setter, repeated read. -/
theorem witness_DirectPort : idle.live ∧ idle.block.hasRtc idle.operands.h s30 := ⟨⟨rfl, rfl⟩, rfl⟩

/-- An unknown handle, another family's chip, a selection of each, and a START at an address bound to one. -/
theorem witness_WithoutAnRtc :
    ((mixed none 9).live ∧ Claims.NoRtc (mixed none 9).block 9 .unknownHandle) ∧
    Claims.NoRtc (mixed none 1).block 1 .unmodelledDevice ∧
    ((mixed (some 1) 0).block.bus.selected = some 1 ∧ Claims.NoRtc (mixed (some 1) 0).block 1 .unmodelledDevice) ∧
    ((mixed (some 2) 0).block.bus.selected = some 2 ∧ Claims.NoRtc (mixed (some 2) 0).block 2 .unknownHandle) ∧
    (Claims.Released (Claims.entered (mixed none 0)) (Claims.entered (mixed none 0)) ∧
      (Claims.entered (mixed none 0)).bus.map[(0x50 : Addr7)] = some 1 ∧
      Claims.NoRtc (Claims.entered (mixed none 0)) 1 .unmodelledDevice) :=
  ⟨⟨⟨rfl, rfl⟩, Or.inl ⟨rfl, rfl⟩⟩, Or.inr ⟨rfl, rfl⟩, ⟨rfl, Or.inr ⟨rfl, rfl⟩⟩, ⟨rfl, Or.inl ⟨rfl, rfl⟩⟩,
    Or.inl ⟨rfl, rfl⟩, by decide +kernel, Or.inr ⟨rfl, rfl⟩⟩

theorem witness_DeviceArena : isNext (step (queued (mixed none 0) 0x05000000#32)) = true ∧
    (queued (mixed none 0) 0x05000000#32).block.device 1 = some .other ∧
    (queued (mixed none 0) 0x05000000#32).block.hasRtc 0 s30 := ⟨by decide +kernel, rfl, rfl⟩

/-- A machine and a next state for each operation's frame; the RTC is reached and stays one. -/
theorem witness_Frame :
    [Instr.busBegin 0x68 true, .busWrite 0x05#8, .busRead true, .busEnd, .devTryconnect 0x68 true, .devReceive 0x05#8,
      .devProduce true, .devDisconnect, .rtcQuery, .rtcSettime, .pwmPin true, .pwmResetall].all (fun i =>
        after (exec i busy) (fun t => t.block.cfgError.isNone && t.block.refused.isNone && (rtc0 t).isSome) = some true)
      = true ∧
    after (exec (.busRegister 0x68) atSetup) (fun t => t.block.cfgError.isNone && t.block.refused.isNone) = some true ∧
    busy.live ∧ busy.block.hasRtc 0 s30 ∧ Claims.reaches (.busRead true) busy 0 ∧ Claims.reaches .rtcQuery busy 0 ∧
    ¬ Claims.reaches (.busRead true) busy 1 :=
  ⟨by decide +kernel, by decide +kernel, ⟨rfl, rfl⟩, rfl, rfl, rfl, (fun h => by cases h)⟩

/-- Bursts of any length, of none, 64 and 65 bytes among them, on the direct port and through the Bus; of 65 bytes the
first has been overwritten, of 64 it stands. -/
theorem witness_WriteBurst :
    (∀ n : Nat,
      let s := { idle with pending := Claims.ops ⟨0, 0, 0, 0, 0⟩ (.devReceive 62#8 ::
        (List.replicate n 0x11#8).map .devReceive) }
      s.live ∧ s.block.hasRtc 0 s30 ∧ s30.ptrLoaded = false) ∧
    (∀ n : Nat,
      let s := { busy with pending := Claims.ops ⟨9, 0, 0, 0, 0⟩ (.busWrite 62#8 ::
        (List.replicate n 0x11#8).map .busWrite) }
      s.live ∧ s.block.bus.selected = some 0 ∧ s.block.hasRtc 0 s30 ∧ s30.ptrLoaded = false) ∧
    (64 ≤ 0 + 64 ∧ ¬ 65 ≤ 0 + 64 ∧ 65 ≤ 1 + 64) :=
  ⟨fun _ => ⟨⟨rfl, rfl⟩, rfl, rfl⟩, fun _ => ⟨⟨rfl, rfl⟩, rfl, rfl, rfl⟩, by decide⟩

/-- The first and the last register; nothing selected, and the device itself selected. -/
theorem witness_Readreg : ∀ p ∈ [0x00#8, 0x3F#8], p.toNat < 64 ∧ s30.addr = 0x68 ∧
    (∀ x, x = none ∨ x = some 0 →
      let s := { withRtc s30 x 0 with pending := Claims.ops ⟨0, 0, 0, 0, 0⟩ (Pseudo.i2cReadreg 0x68 p 1).busOps }
      s.live ∧ s.block.selectionSound ∧ s.block.bus.map[(0x68 : Addr7)] = some 0 ∧ s.block.hasRtc 0 s30) := by
  intro p hp
  refine ⟨by revert p; decide, rfl, fun x hx => ?_⟩
  rcases hx with rfl | rfl
  · exact ⟨⟨rfl, rfl⟩, trivial, (by show idle.block.bound s30.addr = some 0; decide +kernel), rfl⟩
  · have h : busy.block.bound s30.addr = some 0 := by decide +kernel
    exact ⟨⟨rfl, rfl⟩, h, h, rfl⟩

/-- The first and the last millisecond of the century. -/
theorem witness_ReadBack : (946684800000 ≤ (946684800000 : Millis) ∧ (946684800000 : Millis) < 4102444800000) ∧
    (946684800000 ≤ (4102444799999 : Millis) ∧ (4102444799999 : Millis) < 4102444800000) := by decide +kernel

/-- The last second of the century, in the 12-hour mode, run from a halt (P1). -/
def lastSecond : RtcState :=
  ⟨0x68, writeTimeBytes (blankRegs 0 fun _ => 0) #v[0xD9#8, 0x59#8, 0x71#8, 0x01#8, 0x31#8, 0x12#8, 0x99#8], 0, true,
    0, 0, true, true⟩

/-- The run byte 0x59 on it is received as R162 says. -/
theorem received_lastSecond :
    Claims.Received lastSecond 0x59#8 70000 (lastSecond.receiveByte 0x59#8 70000).1 := by
  refine ⟨(fun h => by cases h), fun _ => ⟨by decide +kernel, rfl, rfl, by decide +kernel, by decide +kernel,
    (fun _ h => by cases h), (fun _ _ => by decide +kernel), (fun h => by cases h), (fun h => absurd rfl h)⟩⟩

theorem witness_RunWrite : lastSecond.ptrLoaded = true ∧ lastSecond.ptr = 0x00 ∧ (0x59#8).getLsbD 7 = false ∧
    Claims.Received lastSecond 0x59#8 70000 (lastSecond.receiveByte 0x59#8 70000).1 ∧
    Claims.HoldsFields (lastSecond.receiveByte 0x59#8 70000).1 2099 12 31 23 59 59 :=
  ⟨rfl, rfl, rfl, received_lastSecond, by unfold Claims.HoldsFields; decide +kernel⟩

theorem witness_HaltFreezes :
    let s := { withRtc haltedAtSeconds (some 0) 0 with
      pending := Claims.ops ⟨0, 5000, 0, 0, 0⟩ [.busRead true, .rtcQuery] }
    s.block.hasRtc 0 haltedAtSeconds ∧ haltedAtSeconds.halted = true ∧
    (∀ op ∈ s.pending, ∀ i, decode op.word = .ok i → Claims.readsOnly i = true) ∧
    ∃ t, Host.Core.run core 2 s = .next t := by
  refine ⟨rfl, rfl, ?_, ⟨_, rfl⟩⟩
  intro op hop i hi
  simp only [Claims.ops, List.map_cons, List.map_nil, List.mem_cons, List.not_mem_nil, or_false] at hop
  rcases hop with rfl | rfl
  · have : i = .busRead true := by
      have h : decode (encode (.busRead true)) = .ok (.busRead true) := rfl
      rw [h] at hi; cases hi; rfl
    rw [this]; rfl
  · have : i = .rtcQuery := by
      have h : decode (encode .rtcQuery) = .ok .rtcQuery := rfl
      rw [h] at hi; cases hi; rfl
    rw [this]; rfl

theorem witness_HaltIsLeft : after (exec (.devReceive 0x00#8) (withRtc haltedAtSeconds none 0))
      (fun t => (rtc0 t).map (·.halted)) = some (some false) ∧
    (withRtc haltedAtSeconds none 0).block.hasRtc 0 haltedAtSeconds ∧ haltedAtSeconds.halted = true :=
  ⟨by decide +kernel, rfl, rfl⟩

theorem witness_FieldWrites : ∀ p ∈ [(1 : Ptr), 3, 4, 5, 6],
    (withRtc { s30 with ptr := p, ptrLoaded := true } none 0).live ∧
    (withRtc { s30 with ptr := p, ptrLoaded := true } none 0).block.hasRtc 0 { s30 with ptr := p, ptrLoaded := true } ∧
    s30.halted = false ∧ p.val ∈ [0x01, 0x03, 0x04, 0x05, 0x06] := by
  intro p hp
  refine ⟨⟨rfl, rfl⟩, rfl, rfl, ?_⟩
  revert p; decide

/-- A rising edge of an untracked actuator; falling edges of width 499, 500, 2500 and 2501; a report that is no edge. -/
theorem witness_PinReport :
    (idle.live ∧ PwmRec.fresh = (PwmMap.find 0 idle.block.pwm).getD ⟨false, none, Config.pwmInitAngle⟩) ∧
    ((withPwm ⟨true, some 100, 90⟩ 600).live ∧ (⟨true, some 100, 90⟩ : PwmRec) =
      (PwmMap.find 0 (withPwm ⟨true, some 100, 90⟩ 600).block.pwm).getD ⟨false, none, Config.pwmInitAngle⟩) ∧
    (500 ≤ (600 - 100 : Rat) ∧ (600 - 100 : Rat) ≤ 2500) ∧ (500 ≤ (2600 - 100 : Rat) ∧ (2600 - 100 : Rat) ≤ 2500) ∧
    ((599 - 100 : Rat) < 500 ∧ 2500 < (2601 - 100 : Rat)) :=
  ⟨⟨⟨rfl, rfl⟩, rfl⟩, ⟨⟨rfl, rfl⟩, rfl⟩, by decide +kernel, by decide +kernel, by decide +kernel⟩

theorem witness_ResetAll : (withPwm ⟨true, some 100, 45⟩ 0).live := ⟨rfl, rfl⟩

/-- The pulse of an untracked actuator and of a tracked one that is low. -/
theorem witness_PulseWidth :
    (idle.live ∧ PwmRec.fresh = (PwmMap.find 0 idle.block.pwm).getD ⟨false, none, Config.pwmInitAngle⟩) ∧
    ((withPwm ⟨false, some 100, 45⟩ 0).live ∧ (⟨false, some 100, 45⟩ : PwmRec) =
      (PwmMap.find 0 (withPwm ⟨false, some 100, 45⟩ 0).block.pwm).getD ⟨false, none, Config.pwmInitAngle⟩) :=
  ⟨⟨⟨rfl, rfl⟩, rfl⟩, ⟨rfl, rfl⟩, rfl⟩

theorem witness_AnglesChange : (∀ e ∈ (withPwm ⟨true, some 100, 90⟩ 1350).block.pwm, e.2.sound = true) ∧
    (withPwm ⟨true, some 100, 90⟩ 1350).block.angleOut 0 = some 90 ∧
    after (exec (.pwmPin false) (withPwm ⟨true, some 100, 90⟩ 1350)) (·.block.angleOut 0) = some (some 45) := by
  decide +kernel

theorem witness_PwmCommutes : Claims.isPwm (.pwmPin true) = true ∧ Claims.isPwm (.busRead true) = false ∧
    (∀ a, Instr.busRead true ≠ .busRegister a) ∧ busy.live ∧
    after (exec (.busRead true) (Claims.on busy ⟨0, 5, 0, 0, 0⟩))
      (fun t => t.block.cfgError.isNone && t.block.refused.isNone) = some true :=
  ⟨rfl, rfl, (fun _ h => by cases h), ⟨rfl, rfl⟩, by decide +kernel⟩

theorem witness_Construction : ([.rtc scenarioRtc, .other] : List DeviceSpec)[0]? = some (.rtc scenarioRtc) ∧
    ([.rtc scenarioRtc, .other] : List DeviceSpec).length ≤ 2 := ⟨rfl, by decide⟩

/-- Two actuators that occur in a machine, with identifiers that are exchanged for others. -/
theorem witness_Identifiers : Claims.identifiers (withPwm ⟨true, some 100, 90⟩ 600) = [0, 0] ∧
    (∀ x ∈ Claims.identifiers { withPwm ⟨true, some 100, 90⟩ 600 with operands := ⟨0, 0, 0, 1, 0⟩ },
      ∀ y ∈ Claims.identifiers { withPwm ⟨true, some 100, 90⟩ 600 with operands := ⟨0, 0, 0, 1, 0⟩ },
        (fun n : Nat => if n = 0 then "left" else "right") x = (fun n : Nat => if n = 0 then "left" else "right") y →
          x = y) := by decide +kernel

/-- A machine that meets the invariant with a device selected and an actuator high, and a step from it. -/
def sound : State := queued { busy with block := { busy.block with pwm := [(0, ⟨true, some 5, 45⟩)] } } 0x04800000#32

theorem witness_Invariant : sound.block.Inv ∧ isNext (step sound) = true := by
  refine ⟨⟨by decide +kernel, ?_, ?_, by decide +kernel, by decide +kernel, (fun h => by cases h)⟩, by decide +kernel⟩
  · have h : ∀ a : Addr7, (match sound.block.bound a with
        | none => true
        | some h => (sound.block.device h).isSome) = true := by
      decide +kernel
    intro a h' e
    have := h a
    rw [e] at this; exact this
  · show sound.block.bound s30.addr = some 0
    decide +kernel

end Sys2Proof.Tests
end

section
/-! PROOFS (00_scope.md R11, R73). The machine only compares actuator identifiers: renaming commutes with every rule,
with the ends and the preconditions of an operation, and so with an operation and a step. -/

namespace Sys2Proof.Machine

variable {A B : Type}

/-! ## The block with its actuators renamed -/

/-- The block with another identifier for each actuator; the block of `Claims.rename`. -/
def Block.rename (f : A → B) (b : Block A) : Block B :=
  ⟨b.cfgError, b.refused, b.setupDone, b.bus, b.devices, b.pwm.map fun e => (f e.1, e.2)⟩

@[simp] theorem rename_block (f : A → B) (s : State A) : (Claims.rename f s).block = s.block.rename f := rfl
@[simp] theorem rename_operands (f : A → B) (s : State A) :
    (Claims.rename f s).operands = Claims.renameOperands f s.operands := rfl
@[simp] theorem rename_pending (f : A → B) (s : State A) :
    (Claims.rename f s).pending = s.pending.map fun op => ⟨op.word, Claims.renameOperands f op.operands⟩ := rfl

@[simp] theorem Block.rename_cfgError (f : A → B) (b : Block A) : (b.rename f).cfgError = b.cfgError := rfl
@[simp] theorem Block.rename_refused (f : A → B) (b : Block A) : (b.rename f).refused = b.refused := rfl
@[simp] theorem Block.rename_setupDone (f : A → B) (b : Block A) : (b.rename f).setupDone = b.setupDone := rfl
@[simp] theorem Block.rename_bus (f : A → B) (b : Block A) : (b.rename f).bus = b.bus := rfl
@[simp] theorem Block.rename_device (f : A → B) (b : Block A) (h : Handle) :
    (b.rename f).device h = b.device h := rfl
@[simp] theorem Block.rename_bound (f : A → B) (b : Block A) (a : Addr7) : (b.rename f).bound a = b.bound a := rfl

theorem Block.resetAll_rename (f : A → B) (b : Block A) : (b.rename f).resetAll = b.resetAll.rename f := by
  simp [Block.resetAll, Block.rename, Function.comp_def]

/-- The one operation that reads an identifier compares it with those of the records, and with no other. -/
theorem Block.pinLevel_rename [DecidableEq A] [DecidableEq B] (f : A → B) {b : Block A} {id : A} (level : Bool)
    (now : Micros) (h : ∀ e ∈ b.pwm, f id = f e.1 → id = e.1) :
    (b.rename f).pinLevel (f id) level now = (b.pinLevel id level now).rename f := by
  simp [Block.pinLevel, Block.rename, PwmMap.track, PwmMap.find_rename f id h, PwmMap.put_rename f id _ h]

/-! ## The rules -/

/-- What a rule gives, with the block it gives renamed. -/
def renameAnswer {α : Type} (f : A → B) : Except Stop (Block A × α) → Except Stop (Block B × α)
  | .ok (b, x) => .ok (b.rename f, x)
  | .error e => .error e

theorem Block.onDevice_rename {α : Type} (f : A → B) (b : Block A) (h : Handle) (rule : RtcState → RtcState × α) :
    (b.rename f).onDevice h rule = renameAnswer f (b.onDevice h rule) := by
  simp only [Block.onDevice, Block.rename_device]
  rcases b.device h with _ | (r | _) <;> rfl

theorem Block.answer_onDevice_rename {α : Type} (f : A → B) (b : Block A) (h : Handle) (wrap : α → Response)
    (rule : RtcState → RtcState × α) :
    answer wrap ((b.rename f).onDevice h rule) = renameAnswer f (answer wrap (b.onDevice h rule)) := by
  rw [Block.onDevice_rename]
  rcases b.onDevice h rule with e | ⟨b', x⟩ <;> rfl

theorem Block.register_rename (f : A → B) (b : Block A) (a : Int) (h : Handle) :
    (b.rename f).register a h = renameAnswer f (b.register a h) := by
  by_cases late : b.setupDone = true
  · simp only [Block.register, Block.rename_setupDone, late, if_true, renameAnswer]
  · simp only [Block.register, Block.rename_setupDone, Block.rename_bound, Block.rename_device, late]
    rcases busAddr a with _ | x
    · rfl
    · dsimp only
      rcases b.bound x with _ | k
      · rcases b.device h with _ | d <;> rfl
      · rfl

theorem Block.release_rename (f : A → B) (b : Block A) : (b.rename f).release = b.release.map (Block.rename f) := by
  simp only [Block.release, Block.rename_bus, Block.onDevice_rename]
  rcases b.bus.selected with _ | h
  · rfl
  · dsimp only
    rcases b.onDevice h RtcState.disconnect with e | ⟨b', x⟩ <;> rfl

theorem Block.connect_rename (f : A → B) (b : Block A) (a : Addr7) (isWrite : Bool) :
    (b.rename f).connect a isWrite = renameAnswer f (b.connect a isWrite) := by
  simp only [Block.connect, Block.rename_bound, Block.onDevice_rename]
  rcases b.bound a with _ | h
  · rfl
  · dsimp only
    rcases b.onDevice h (RtcState.tryConnect a isWrite) with e | ⟨b', _ | _⟩ <;> rfl

theorem Block.startTransaction_rename (f : A → B) (b : Block A) (a : Addr7) (isWrite : Bool) :
    (b.rename f).startTransaction a isWrite = renameAnswer f (b.startTransaction a isWrite) := by
  simp only [Block.startTransaction, Block.release_rename]
  rcases b.release with e | b'
  · rfl
  · exact Block.connect_rename f b' a isWrite

theorem Block.endTransaction_rename (f : A → B) (b : Block A) :
    (b.rename f).endTransaction = renameAnswer f b.endTransaction := by
  simp only [Block.endTransaction, Block.release_rename]
  rcases b.release with e | b' <;> rfl

theorem Block.writeByte_rename (f : A → B) (b : Block A) (v : Byte) (t : Millis) :
    (b.rename f).writeByte v t = renameAnswer f (b.writeByte v t) := by
  simp only [Block.writeByte, Block.rename_bus, Block.answer_onDevice_rename]
  rcases b.bus.selected with _ | h <;> rfl

theorem Block.readByte_rename (f : A → B) (b : Block A) (ack : Bool) (t : Millis) :
    (b.rename f).readByte ack t = renameAnswer f (b.readByte ack t) := by
  simp only [Block.readByte, Block.rename_bus, Block.answer_onDevice_rename]
  rcases b.bus.selected with _ | h <;> rfl

/-- Every rule gives on the renamed block what it gave, renamed. -/
theorem ruleOf_rename [DecidableEq A] [DecidableEq B] (f : A → B) (i : Instr) {o : SideOperands A} {b : Block A}
    (h : ∀ e ∈ b.pwm, f o.id = f e.1 → o.id = e.1) :
    ruleOf i (Claims.renameOperands f o) (b.rename f) = renameAnswer f (ruleOf i o b) := by
  cases i with
  | busRegister a => exact Block.register_rename f b a o.h
  | busBegin a isWrite => exact Block.startTransaction_rename f b a isWrite
  | busWrite v => exact Block.writeByte_rename f b v o.t
  | busRead ack => exact Block.readByte_rename f b ack o.t
  | busEnd => exact Block.endTransaction_rename f b
  | devTryconnect a isWrite => exact Block.answer_onDevice_rename f b o.h _ _
  | devReceive v => exact Block.answer_onDevice_rename f b o.h _ _
  | devProduce ack => exact Block.answer_onDevice_rename f b o.h _ _
  | devDisconnect => exact Block.answer_onDevice_rename f b o.h _ _
  | rtcQuery => exact Block.onDevice_rename f b o.h _
  | rtcSettime => exact Block.onDevice_rename f b o.h _
  | pwmPin level =>
    exact congrArg (fun b' => Except.ok (b', Response.unit)) (Block.pinLevel_rename f level o.now h)
  | pwmResetall => exact congrArg (fun b' => Except.ok (b', Response.unit)) (Block.resetAll_rename f b)

/-! ## The machine -/

theorem entry_rename (f : A → B) (i : Instr) (s : State A) :
    entry i (Claims.rename f s) = Claims.rename f (entry i s) := by
  cases i <;> rfl

theorem State.take_rename (f : A → B) (s : State A) (op : HostOp A) (rest : List (HostOp A)) :
    (Claims.rename f s).take ⟨op.word, Claims.renameOperands f op.operands⟩
      (rest.map fun op => ⟨op.word, Claims.renameOperands f op.operands⟩) = Claims.rename f (s.take op rest) := rfl

theorem State.finish_rename (f : A → B) (s : State A) (x : Except Stop (Block A × Response)) :
    (Claims.rename f s).finish (renameAnswer f x) = Claims.rename f (s.finish x) := by
  rcases x with (q | c) | ⟨b, r⟩ <;> rfl

theorem State.precheck_rename (f : A → B) (s : State A) (go : Result A) :
    (Claims.rename f s).precheck (Claims.mapNext (Claims.rename f) go) =
      Claims.mapNext (Claims.rename f) (s.precheck go) := by
  simp only [State.precheck, rename_block, Block.rename_cfgError, Block.rename_refused]
  rcases s.block.cfgError with _ | c
  · rcases s.block.refused with _ | q <;> rfl
  · rfl

/-- An operation compares the identifier of its own side operands with those of the records, and no others. -/
theorem perform_rename [DecidableEq A] [DecidableEq B] (f : A → B) (i : Instr) {s : State A}
    (h : ∀ e ∈ s.block.pwm, f s.operands.id = f e.1 → s.operands.id = e.1) :
    perform i (Claims.rename f s) = Claims.mapNext (Claims.rename f) (perform i s) := by
  have hr := ruleOf_rename f i (b := (entry i s).block) (by simpa using h)
  rw [perform_eq, perform_eq, ← State.precheck_rename, entry_rename, rename_operands, rename_block, hr,
    State.finish_rename]
  rfl

/-- A step compares the identifier of the operation it takes with those of the records, and no others. -/
theorem performStep_rename [DecidableEq A] [DecidableEq B] (f : A → B) {s : State A}
    (h : ∀ op ∈ s.pending, ∀ e ∈ s.block.pwm, f op.operands.id = f e.1 → op.operands.id = e.1) :
    performStep (Claims.rename f s) = Claims.mapNext (Claims.rename f) (performStep s) := by
  rcases hp : s.pending with _ | ⟨op, rest⟩
  · simp only [performStep, State.runNext, rename_pending, hp, List.map_nil, Claims.mapNext]
  · simp only [performStep, State.runNext, rename_pending, hp, List.map_cons, State.take_rename]
    rcases decode op.word with e | i
    · exact State.precheck_rename f (s.take op rest) (.next ((s.take op rest).refuse .illegalWord))
    · exact perform_rename f i (h op (by simp [hp]))

/-- The identifiers that occur in a machine are those of its operands, of its pending operations and of its records. -/
theorem mem_identifiers {x : A} {s : State A} :
    x ∈ Claims.identifiers s ↔
      x = s.operands.id ∨ (∃ op ∈ s.pending, op.operands.id = x) ∨ ∃ e ∈ s.block.pwm, e.1 = x := by
  simp [Claims.identifiers]

/-- The machine the host runs takes the steps of the machine over `ActuatorId` (R11). -/
theorem step_eq_performStep (s : State) : step s = performStep s :=
  congrArg (State.runNext · s) (funext fun i => funext (exec_eq_perform i))

/-- Settles O47: renaming commutes with every operation and every step, since only `pwm.pin` compares identifiers, its
own with those of the records. -/
theorem actuatorIdentifiersAreOnlyCompared : Obligations.ActuatorIdentifiersAreOnlyCompared := by
  unfold Obligations.ActuatorIdentifiersAreOnlyCompared
  refine ⟨exec_eq_perform, step_eq_performStep, fun A B _ _ f s hinj => ?_⟩
  have hrec : ∀ e ∈ s.block.pwm, e.1 ∈ Claims.identifiers s :=
    fun e he => mem_identifiers.2 (.inr (.inr ⟨e, he, rfl⟩))
  constructor
  · intro i
    have hid : s.operands.id ∈ Claims.identifiers s := mem_identifiers.2 (.inl rfl)
    exact perform_rename f i fun e he => hinj _ hid _ (hrec e he)
  · refine performStep_rename f fun op hop e he => ?_
    have hid : op.operands.id ∈ Claims.identifiers s := mem_identifiers.2 (.inr (.inl ⟨op, hop, rfl⟩))
    exact hinj _ hid _ (hrec e he)

end Sys2Proof.Machine
end

section
/-! PROOFS (10_state.md). What every step keeps: the entries of the bus map (R31), the selection (R32), the device arena
(R33, R41), and the invariant of the block (R39, R40, R43, R146), which construction establishes (R270, R271). Each is
shown of a completed rule and carried to a step by `step_keeps`. -/

namespace Sys2Proof.Machine

variable {Ident : Type}

/-! ## The bus map -/

/-- From one block to another each set entry of the bus map stays, after the setup phase the whole map (R31, R53). -/
def Block.KeepsBindings (b b' : Block Ident) : Prop :=
  (∀ a h, b.bound a = some h → b'.bound a = some h) ∧
  (b.setupDone = true → b'.setupDone = true ∧ b'.bus.map = b.bus.map)

theorem Block.KeepsBindings.refl (b : Block Ident) : b.KeepsBindings b := ⟨fun _ _ e => e, fun hs => ⟨hs, rfl⟩⟩

theorem Block.KeepsBindings.trans {b c d : Block Ident} (hbc : b.KeepsBindings c) (hcd : c.KeepsBindings d) :
    b.KeepsBindings d := by
  refine ⟨fun a h e => hcd.1 a h (hbc.1 a h e), fun hs => ?_⟩
  obtain ⟨hc, mc⟩ := hbc.2 hs
  obtain ⟨hd, md⟩ := hcd.2 hc
  exact ⟨hd, md.trans mc⟩

/-- No operation takes the machine back to the setup phase (R270). -/
theorem entry_setupDone (i : Instr) {s : State Ident} (hs : s.block.setupDone = true) :
    (entry i s).block.setupDone = true := by
  cases i with
  | busRegister _ => exact hs
  | _ => rfl

theorem entry_keepsBindings (i : Instr) (s : State Ident) : s.block.KeepsBindings (entry i s).block :=
  ⟨fun a h e => by simpa [Block.bound] using e, fun hs => ⟨entry_setupDone i hs, by simp⟩⟩

/-- Only a registration writes the map, in the setup phase and at an address not bound before. -/
theorem rule_keepsBindings [DecidableEq Ident] {i : Instr} {o : SideOperands Ident} {b b' : Block Ident} {x : Response}
    (e : ruleOf i o b = .ok (b', x)) : b.KeepsBindings b' := by
  obtain ⟨_, _, hdone, _⟩ := rule_marks e
  rcases (rule_units e).1 with ⟨_, _, hsetup, k, _, hfree, _, rfl⟩ | hmap
  · refine ⟨fun a h ha => ?_, fun hs => by simp [hsetup] at hs⟩
    have hne : a ≠ k := by rintro rfl; simp [hfree] at ha
    rw [Block.bound_bind, if_neg hne, ha]
  · exact ⟨fun a h ha => by rw [Block.bound, hmap]; exact ha, fun hs => ⟨hdone.trans hs, hmap⟩⟩

/-- Settles O17: of the rules only a registration writes the map, and only an entry that is not set. -/
theorem busMapEntriesNeverChange : Obligations.BusMapEntriesNeverChange := by
  unfold Obligations.BusMapEntriesNeverChange
  intro s t h
  have hk : s.block.KeepsBindings t.block :=
    step_keeps s.block.KeepsBindings h (.refl _) (fun _ _ hb => hb) (fun _ _ hb => hb)
      (fun i u hu => hu.trans (entry_keepsBindings i u)) (fun _ _ _ _ _ hb _ e => hb.trans (rule_keepsBindings e))
  exact ⟨hk.1, fun hs => (hk.2 hs).2⟩

/-! ## The selection -/

/-- An operation leaves the Bus as it was, or its rule completed with the block it leaves. -/
theorem exec_bus_or_completes {i : Instr} {s t : State} (h : exec i s = .next t) :
    t.block.bus = s.block.bus ∨ ∃ x, ruleOf i s.operands (entry i s).block = .ok (t.block, x) := by
  rcases exec_next h with ⟨_, rfl⟩ | ⟨_, _, rfl⟩
  · rcases finish_block (entry i s) (ruleOf i s.operands (entry i s).block) with
      ⟨b, x, hx, hb⟩ | ⟨_, _, hb⟩ | ⟨_, _, hb⟩
    · exact Or.inr ⟨x, by rw [hb, hx]⟩
    · exact Or.inl (by simp [hb])
    · exact Or.inl (by simp [hb])
  · exact Or.inl rfl

/-- Settles O18: of the rules only those of `bus.begin` and `bus.end` write the selection. -/
theorem onlyBeginAndEndWriteTheSelection : Obligations.OnlyBeginAndEndWriteTheSelection := by
  unfold Obligations.OnlyBeginAndEndWriteTheSelection
  intro i s t h hbegin hend
  rcases exec_bus_or_completes h with hbus | ⟨x, hx⟩
  · rw [hbus]
  · rcases (rule_units hx).2.1 with ⟨a, w, hi⟩ | hi | hsel
    · exact absurd hi (hbegin a w)
    · exact absurd hi hend
    · simpa using hsel

/-! ## The device arena -/

/-- From one block to another the devices stay as many and of their kind, and each RTC keeps its configured address
(R33, R41). -/
def Block.KeepsArena (b b' : Block Ident) : Prop :=
  b'.devices.length = b.devices.length ∧
  ∀ h, (b.device h = some .other → b'.device h = some .other) ∧
    ∀ r, b.hasRtc h r → ∃ r', b'.hasRtc h r' ∧ r'.addr = r.addr

theorem Block.KeepsArena.refl (b : Block Ident) : b.KeepsArena b :=
  ⟨rfl, fun _ => ⟨fun e => e, fun r hr => ⟨r, hr, rfl⟩⟩⟩

theorem Block.KeepsArena.trans {b c d : Block Ident} (hbc : b.KeepsArena c) (hcd : c.KeepsArena d) :
    b.KeepsArena d := by
  refine ⟨hcd.1.trans hbc.1, fun h => ⟨fun e => (hcd.2 h).1 ((hbc.2 h).1 e), fun r hr => ?_⟩⟩
  obtain ⟨rc, hc, ac⟩ := (hbc.2 h).2 r hr
  obtain ⟨rd, hd, ad⟩ := (hcd.2 h).2 rc hc
  exact ⟨rd, hd, ad.trans ac⟩

theorem entry_device (i : Instr) (s : State Ident) (h : Handle) : (entry i s).block.device h = s.block.device h := by
  simp [Block.device]

theorem entry_keepsArena (i : Instr) (s : State Ident) : s.block.KeepsArena (entry i s).block :=
  ⟨by simp, fun h => ⟨fun e => (entry_device i s h).trans e, fun r hr => ⟨r, (entry_device i s h).trans hr, rfl⟩⟩⟩

/-- A completed rule changes devices only as `deviceAfter` says: an RTC into an RTC of the same address. -/
theorem rule_keepsArena [DecidableEq Ident] {i : Instr} {o : SideOperands Ident} {b b' : Block Ident} {x : Response}
    (e : ruleOf i o b = .ok (b', x)) : b.KeepsArena b' := by
  obtain ⟨_, _, _, hlen⟩ := rule_marks e
  refine ⟨hlen, fun h => ?_⟩
  rcases rule_device e h with hsame | ⟨r, r', hr, hr', hafter⟩
  · exact ⟨fun e => hsame.trans e, fun r hr => ⟨r, hsame.trans hr, rfl⟩⟩
  · refine ⟨fun e => by simp [hr] at e, fun q hq => ⟨r', hr', ?_⟩⟩
    cases hr.symm.trans hq
    exact rtcAfter_addr hafter

/-- The handles with a device are those below the number of devices. -/
theorem Block.isSome_device (b : Block Ident) (h : Handle) : (b.device h).isSome = true ↔ h < b.devices.length := by
  simp [Block.device]

/-- Settles O24: every rule exchanges an RTC only for one of the same address. -/
theorem deviceArenaIsFixed : Obligations.DeviceArenaIsFixed := by
  unfold Obligations.DeviceArenaIsFixed
  intro s t h
  exact step_keeps s.block.KeepsArena h (.refl _) (fun _ _ hb => hb) (fun _ _ hb => hb)
    (fun i u hu => hu.trans (entry_keepsArena i u)) (fun _ _ _ _ _ hb _ e => hb.trans (rule_keepsArena e))

/-! ## The invariant holds after construction -/

/-- Construction materializes the time into the blank registers, which sets the flags' bits (R271). -/
theorem coherent_construct (p : RtcParams) : (RtcState.construct p).coherent = true :=
  coherent_materialize { RtcState.construct p with regs := blankRegs p.initControl p.initScratch } p.seedWall

/-- A constructed circuit has no binding, no selection and no record; its RTCs are coherent (R50, R270). -/
theorem construct_inv [DecidableEq Ident] (devs : List DeviceSpec) : (Block.construct devs : Block Ident).Inv where
  devices_coherent d hd := by
    obtain ⟨spec, _, rfl⟩ := List.mem_map.1 hd
    cases spec with
    | rtc p => exact coherent_construct p
    | other => rfl
  bound_exists a h e := by simp [Block.bound, Block.construct] at e
  selection_sound := trivial
  pwm_unique := rfl
  pwm_sound e he := by simp [Block.construct] at he
  setup_idle _ := ⟨rfl, rfl⟩

/-- Settles O45: the circuit of `State.reset` is one of those constructed. -/
theorem constructionSatisfiesTheInvariant : Obligations.ConstructionSatisfiesTheInvariant := by
  unfold Obligations.ConstructionSatisfiesTheInvariant
  exact ⟨construct_inv, construct_inv circuit⟩

/-! ## The invariant is kept by every step -/

/-- The selection invariant, said of the handle that is selected (R146). -/
theorem Block.selectionSound_iff (b : Block Ident) :
    b.selectionSound ↔ ∀ h, b.bus.selected = some h → ∃ r, b.hasRtc h r ∧ b.bound r.addr = some h := by
  unfold Block.selectionSound Block.hasRtc
  rcases b.bus.selected with _ | h
  · simp
  · rcases hd : b.device h with _ | (r | _) <;> simp [hd]

/-- Nothing selected is no selection to be unsound. -/
theorem Block.selectionSound_of_none {b : Block Ident} (h : b.bus.selected = none) : b.selectionSound := by
  simp [Block.selectionSound_iff, h]

/-- A selection that stays is sound where the bindings and the arena are kept (R31, R41). -/
theorem Block.selectionSound_of_kept {b b' : Block Ident} (hs : b.selectionSound)
    (hsel : b'.bus.selected = b.bus.selected) (hbind : b.KeepsBindings b') (harena : b.KeepsArena b') :
    b'.selectionSound := by
  rw [Block.selectionSound_iff] at hs ⊢
  intro h e
  obtain ⟨r, hr, ha⟩ := hs h (hsel ▸ e)
  obtain ⟨r', hr', haddr⟩ := (harena.2 h).2 r hr
  exact ⟨r', hr', haddr ▸ hbind.1 _ _ ha⟩

/-- A release leaves nothing selected (R142, R145). -/
theorem release_selected {b b' : Block Ident} (e : b.release = .ok b') : b'.bus.selected = none := by
  rcases release_ok e with ⟨hs, rfl⟩ | ⟨_, _, _, _, rfl⟩
  · exact hs
  · rfl

/-- A look-up with nothing selected selects, if anything, an RTC bound at its own address (R142). -/
theorem connect_selectionSound {b b' : Block Ident} {a : Addr7} {w : Bool} {x : Response}
    (e : b.connect a w = .ok (b', x)) (hs : b.bus.selected = none) : b'.selectionSound := by
  rcases connect_ok e with ⟨rfl, _⟩ | ⟨h, r, hb, hd, rfl, rfl, _⟩
  · exact Block.selectionSound_of_none hs
  · rw [Block.selectionSound_iff]
    intro k hk
    obtain rfl : h = k := by simpa using hk
    exact ⟨_, Block.device_setDevice_self b h _ _ hd, hb⟩

section rule

variable [DecidableEq Ident] {i : Instr} {o : SideOperands Ident} {b b' : Block Ident} {x : Response}

/-- The rules that write the selection start from a release; the others keep what its soundness rests on (R146). -/
theorem rule_selectionSound (e : ruleOf i o b = .ok (b', x)) (hs : b.selectionSound) : b'.selectionSound := by
  rcases (rule_units e).2.1 with ⟨a, w, rfl⟩ | rfl | hsel
  · obtain ⟨m, hm, hc⟩ := startTransaction_ok e
    exact connect_selectionSound hc (release_selected hm)
  · obtain ⟨hr, _⟩ := endTransaction_ok e
    exact Block.selectionSound_of_none (release_selected hr)
  · exact Block.selectionSound_of_kept hs hsel (rule_keepsBindings e) (rule_keepsArena e)

/-- A device is as it was, or an RTC its rule keeps coherent (R39, R40). -/
theorem rule_devices_coherent (e : ruleOf i o b = .ok (b', x)) (hc : ∀ d ∈ b.devices, d.coherent = true) :
    ∀ d ∈ b'.devices, d.coherent = true := by
  intro d hd
  obtain ⟨h, hh⟩ := List.mem_iff_getElem?.1 hd
  rcases rule_device e h with hsame | ⟨r, r', hr, hr', hafter⟩
  · exact hc d (List.mem_iff_getElem?.2 ⟨h, hsame.symm.trans hh⟩)
  · cases hr'.symm.trans hh
    exact rtcAfter_coherent hafter (hc (.rtc r) (List.mem_iff_getElem?.2 ⟨h, hr⟩))

/-- A registration binds a handle that has a device; no rule removes one (R33, R141). -/
theorem rule_bound_exists (e : ruleOf i o b = .ok (b', x))
    (hb : ∀ a h, b.bound a = some h → (b.device h).isSome = true) :
    ∀ a h, b'.bound a = some h → (b'.device h).isSome = true := by
  intro a h ha
  rw [Block.isSome_device, (rule_keepsArena e).1, ← Block.isSome_device]
  rcases (rule_units e).1 with ⟨_, _, _, k, _, _, hdev, rfl⟩ | hmap
  · rw [Block.bound_bind] at ha
    split at ha
    · cases ha; exact hdev
    · exact hb a h ha
  · rw [Block.bound, hmap] at ha
    exact hb a h ha

/-- A record that `pwm.pin` starts from is sound: the actuator's own, or a fresh one (R43, R221). -/
theorem track_sound {m : PwmMap Ident} (hs : ∀ e ∈ m, e.2.sound = true) (id : Ident) :
    (PwmMap.track m id).sound = true := by
  unfold PwmMap.track
  rcases hf : PwmMap.find id m with _ | r
  · exact fresh_sound
  · exact hs _ (PwmMap.mem_of_find hf)

/-- No identifier gets a second record (R42). -/
theorem rule_pwm_unique (e : ruleOf i o b = .ok (b', x)) (hu : PwmMap.wf b.pwm = true) :
    PwmMap.wf b'.pwm = true := by
  rcases (rule_units e).2.2 with ⟨_, _, rfl⟩ | ⟨_, rfl⟩ | hpwm
  · exact PwmMap.wf_put hu _ _
  · exact PwmMap.wf_map hu PwmRec.neutral
  · rw [hpwm]; exact hu

/-- A rule writes a record only by a pin report of a sound one, or by the neutral one (R43). -/
theorem rule_pwm_sound (e : ruleOf i o b = .ok (b', x)) (hs : ∀ e ∈ b.pwm, e.2.sound = true) :
    ∀ e ∈ b'.pwm, e.2.sound = true := by
  rcases (rule_units e).2.2 with ⟨level, _, rfl⟩ | ⟨_, rfl⟩ | hpwm
  · intro p hp
    rcases PwmMap.mem_put hp with rfl | hp
    · exact report_sound (track_sound hs o.id) level o.now
    · exact hs p hp
  · intro p hp
    obtain ⟨q, _, rfl⟩ := List.mem_map.1 hp
    exact neutral_sound q.2
  · rw [hpwm]; exact hs

/-- A rule completes in the setup phase only where it is a registration, which selects and tracks nothing (R270). -/
theorem rule_setup_idle (e : ruleOf i o b = .ok (b', x)) (hi : b.setupDone = true ∨ ∃ a, i = .busRegister a)
    (hs : b.setupDone = false → b.bus.selected = none ∧ b.pwm = []) :
    b'.setupDone = false → b'.bus.selected = none ∧ b'.pwm = [] := by
  intro hf
  obtain ⟨_, _, hdone, _⟩ := rule_marks e
  have hbf : b.setupDone = false := hdone.symm.trans hf
  rcases hi with ht | ⟨a, rfl⟩
  · simp [ht] at hbf
  · obtain ⟨_, _, _, _, _, rfl, _⟩ := register_ok e
    exact hs hbf

/-- A completed rule keeps the invariant. -/
theorem rule_inv (hb : b.Inv) (hi : b.setupDone = true ∨ ∃ a, i = .busRegister a) (e : ruleOf i o b = .ok (b', x)) :
    b'.Inv where
  devices_coherent := rule_devices_coherent e hb.devices_coherent
  bound_exists := rule_bound_exists e hb.bound_exists
  selection_sound := rule_selectionSound e hb.selection_sound
  pwm_unique := rule_pwm_unique e hb.pwm_unique
  pwm_sound := rule_pwm_sound e hb.pwm_sound
  setup_idle := rule_setup_idle e hi hb.setup_idle

/-- The invariant speaks of no mark, and of the setup phase only while it lasts. -/
theorem Block.Inv.of_units (hb : b.Inv) (hbus : b'.bus = b.bus) (hdev : b'.devices = b.devices)
    (hpwm : b'.pwm = b.pwm) (hsetup : b'.setupDone = false → b.setupDone = false) : b'.Inv := by
  obtain ⟨cfgError, refused, setupDone, bus, devices, pwm⟩ := b'
  dsimp only at hbus hdev hpwm hsetup
  subst hbus hdev hpwm
  exact ⟨hb.devices_coherent, hb.bound_exists, hb.selection_sound, hb.pwm_unique, hb.pwm_sound,
    fun hf => hb.setup_idle (hsetup hf)⟩

end rule

/-- The end of the setup phase keeps the invariant. -/
theorem entry_inv [DecidableEq Ident] (i : Instr) {s : State Ident} (hs : s.block.Inv) : (entry i s).block.Inv := by
  refine hs.of_units (entry_bus i s) (entry_devices i s) (entry_pwm i s) fun hf => ?_
  refine Bool.eq_false_of_not_eq_true fun hd => ?_
  simp [entry_setupDone i hd] at hf

/-- Settles O46: the marks and the end of the setup phase leave what the invariant speaks of, and every completed rule
keeps each of its parts. -/
theorem everyStepKeepsTheInvariant : Obligations.EveryStepKeepsTheInvariant := by
  unfold Obligations.EveryStepKeepsTheInvariant
  intro s t hs h
  exact step_keeps Block.Inv h hs (fun _ _ hb => hb.of_units rfl rfl rfl id) (fun _ _ hb => hb.of_units rfl rfl rfl id)
    (fun i _ hu => entry_inv i hu) (fun _ _ _ _ _ hb hi e => rule_inv hb hi e)

end Sys2Proof.Machine
end

section
/-! PROOFS (20_memory.md). The order of the host's operations: a step executes the one decoded next (R83, R100), a
repeated unacknowledged read at one time repeats (R78), and a PWM operation and one of the other units may change places
(R85), because neither unit's rules see what the other's write (R220). -/

namespace Sys2Proof.Machine

variable {Ident : Type}

/-! ## The step -/

/-- The operation of a table word is the decoded operation of the one command word it stands for. -/
theorem decodeTableWord_some {nbits w : Nat} {i : Instr} (h : decodeTableWord nbits w = some i) :
    ∃ x, tableWord nbits w = some x ∧ decode x = .ok i := by
  unfold decodeTableWord at h
  rcases hx : tableWord nbits w with _ | x <;> simp only [hx] at h
  · cases h
  · rcases hd : decode x with e | j <;> rw [hd] at h
    · cases h
    · cases h; exact ⟨x, rfl, hd⟩

theorem State.withFetchWord_of_some {s : State} {nbits w : Nat} {x : Word} (h : tableWord nbits w = some x) :
    s.withFetchWord nbits w = s.present x := by
  simp only [State.withFetchWord, h]

/-- An operation presented on the host port and taken off it again leaves the machine it was presented to. -/
theorem State.take_present (s : State Ident) (w : Word) : (s.present w).take ⟨w, s.operands⟩ s.pending = s := rfl

theorem step_idle {s : State} (h : s.pending = []) : step s = .next s := by
  simp only [step, State.runNext, h]

/-- Settles O5: a table word is presented as the next pending operation, and the step takes it off again. -/
theorem stepExecutesTheDecodedOperation : Obligations.StepExecutesTheDecodedOperation := by
  unfold Obligations.StepExecutesTheDecodedOperation
  refine ⟨fun s op rest i hp hd => step_decoded hp hd, fun s w i h => ?_, fun s hp => step_idle hp⟩
  obtain ⟨x, hx, hd⟩ := decodeTableWord_some h
  rw [State.withFetchWord_of_some hx, step_decoded (State.present_pending s x) hd, State.take_present]

/-! ## The operations after the setup phase -/

/-- Every operation but a registration starts from the block with its setup phase ended (R270). -/
theorem entry_block_of_ne_register {i : Instr} (hi : ∀ a, i ≠ .busRegister a) (s : State) :
    (entry i s).block = Claims.entered s := by
  cases i with
  | busRegister a => exact absurd rfl (hi a)
  | _ => rfl

/-- Where the setup phase has ended, it stays so, and no operation's entry changes the block. -/
theorem entry_block_of_setupDone (i : Instr) {s : State Ident} (hs : s.block.setupDone = true) :
    (entry i s).block = s.block := by
  have hb : { s.block with setupDone := true } = s.block := by rw [← hs]
  cases i with
  | busRegister _ => rfl
  | _ => exact hb

/-- An operation that leaves a live machine has completed. -/
theorem exec_completed {i : Instr} {s t : State} (h : exec i s = .next t) (ht : t.live) :
    ∃ x, ruleOf i s.operands (entry i s).block = .ok (t.block, x) ∧ t.responses = s.responses ++ [x] := by
  obtain ⟨hcfg, href⟩ := ht
  rcases exec_next h with ⟨_, rfl⟩ | ⟨_, hr, rfl⟩
  · rcases hx : ruleOf i s.operands (entry i s).block with (q | c) | ⟨b, x⟩ <;> rw [hx] at hcfg href
    · cases href
    · cases hcfg
    · exact ⟨x, rfl, by simp [State.finish]⟩
  · exact absurd href hr

/-! ## The repeated read -/

@[simp] theorem RtcState.derive_ptr (r : RtcState) (t : Millis) : (r.derive t).ptr = r.ptr := by
  unfold RtcState.derive; split <;> rfl

/-- A second derivation at the same time writes the same time registers (R186). -/
@[simp] theorem RtcState.derive_derive (r : RtcState) (t : Millis) : (r.derive t).derive t = r.derive t := by
  rcases hh : r.halted with _ | _
  · simp [RtcState.derive, hh, RtcState.materialize, RtcState.instantAt, writeTimeBytes_twice]
  · simp [RtcState.derive, hh]

/-- An unacknowledged read does not advance the pointer, so the next one at the same time finds the same (R78, R165). -/
theorem RtcState.produceByte_nack_twice (r : RtcState) (t : Millis) :
    (r.produceByte false t).1.produceByte false t = r.produceByte false t := by
  simp [RtcState.produceByte]

/-- A read through the direct port, of a live machine with an RTC at the handle (R165). -/
theorem completes_devProduce {s : State} {r : RtcState} (ack : Bool) (hl : s.live)
    (hr : s.block.hasRtc s.operands.h r) :
    Completes (.devProduce ack) s
      ((entry (.devProduce ack) s).block.setDevice s.operands.h (.rtc (r.produceByte ack s.operands.t).1))
      (.byte (r.produceByte ack s.operands.t).2) := by
  refine completes_of hl rfl ?_
  have hd := Block.onDevice_rtc (RtcState.produceByte ack s.operands.t)
    ((entry_device (.devProduce ack) s s.operands.h).trans hr)
  simp only [ruleOf, hd, answer]

/-- A read like one before it, at the same time, leaves the block as that one left it. -/
theorem completes_devProduce_nack_again {s : State} {r : RtcState} (hl : s.live) (hsetup : s.block.setupDone = true)
    (hr : s.block.hasRtc s.operands.h (r.produceByte false s.operands.t).1) :
    Completes (.devProduce false) s s.block (.byte (r.produceByte false s.operands.t).2) := by
  have h := completes_devProduce false hl hr
  rwa [entry_block_of_setupDone _ hsetup, r.produceByte_nack_twice, Block.setDevice_same hr] at h

/-- Settles O34: the first read leaves an RTC that the second one, at the same time, puts back as it is. -/
theorem repeatedReadAtOneTimeRepeats : Obligations.RepeatedReadAtOneTimeRepeats := by
  unfold Obligations.RepeatedReadAtOneTimeRepeats
  intro s r hl hr
  have hleft := Block.device_setDevice_self _ s.operands.h (.rtc (r.produceByte false s.operands.t).1) _
    ((entry_device (.devProduce false) s s.operands.h).trans hr)
  exact ⟨_, _, completes_devProduce false hl hr, rfl, completes_devProduce_nack_again hl rfl hleft⟩

/-! ## The actuator records exchanged -/

/-- The block with other actuator records; the block of `Claims.withPwm`. -/
def Block.withPwm (m : PwmMap Ident) (b : Block Ident) : Block Ident := { b with pwm := m }

@[simp] theorem withPwm_block (m : PwmMap) (s : State) : (Claims.withPwm m s).block = s.block.withPwm m := rfl

@[simp] theorem Block.withPwm_setupDone (m : PwmMap Ident) (b : Block Ident) :
    (b.withPwm m).setupDone = b.setupDone := rfl
@[simp] theorem Block.withPwm_bus (m : PwmMap Ident) (b : Block Ident) : (b.withPwm m).bus = b.bus := rfl
@[simp] theorem Block.withPwm_device (m : PwmMap Ident) (b : Block Ident) (h : Handle) :
    (b.withPwm m).device h = b.device h := rfl
@[simp] theorem Block.withPwm_bound (m : PwmMap Ident) (b : Block Ident) (a : Addr7) :
    (b.withPwm m).bound a = b.bound a := rfl

/-- What a rule gives, with the records of the block it gives exchanged. -/
def withPwmAnswer {α : Type} (m : PwmMap Ident) : Except Stop (Block Ident × α) → Except Stop (Block Ident × α)
  | .ok (b, x) => .ok (b.withPwm m, x)
  | .error e => .error e

theorem Block.onDevice_withPwm {α : Type} (m : PwmMap Ident) (b : Block Ident) (h : Handle)
    (rule : RtcState → RtcState × α) : (b.withPwm m).onDevice h rule = withPwmAnswer m (b.onDevice h rule) := by
  simp only [Block.onDevice, Block.withPwm_device]
  rcases b.device h with _ | (r | _) <;> rfl

theorem Block.answer_onDevice_withPwm {α : Type} (m : PwmMap Ident) (b : Block Ident) (h : Handle)
    (wrap : α → Response) (rule : RtcState → RtcState × α) :
    answer wrap ((b.withPwm m).onDevice h rule) = withPwmAnswer m (answer wrap (b.onDevice h rule)) := by
  rw [Block.onDevice_withPwm]
  rcases b.onDevice h rule with e | ⟨b', x⟩ <;> rfl

theorem Block.register_withPwm (m : PwmMap Ident) (b : Block Ident) (a : Int) (h : Handle) :
    (b.withPwm m).register a h = withPwmAnswer m (b.register a h) := by
  by_cases late : b.setupDone = true
  · simp only [Block.register, Block.withPwm_setupDone, late, if_true, withPwmAnswer]
  · simp only [Block.register, Block.withPwm_setupDone, Block.withPwm_bound, Block.withPwm_device, late]
    rcases busAddr a with _ | k
    · rfl
    · dsimp only
      rcases b.bound k with _ | j
      · rcases b.device h with _ | d <;> rfl
      · rfl

theorem Block.release_withPwm (m : PwmMap Ident) (b : Block Ident) :
    (b.withPwm m).release = b.release.map (Block.withPwm m) := by
  simp only [Block.release, Block.withPwm_bus, Block.onDevice_withPwm]
  rcases b.bus.selected with _ | h
  · rfl
  · dsimp only
    rcases b.onDevice h RtcState.disconnect with e | ⟨b', x⟩ <;> rfl

theorem Block.connect_withPwm (m : PwmMap Ident) (b : Block Ident) (a : Addr7) (isWrite : Bool) :
    (b.withPwm m).connect a isWrite = withPwmAnswer m (b.connect a isWrite) := by
  simp only [Block.connect, Block.withPwm_bound, Block.onDevice_withPwm]
  rcases b.bound a with _ | h
  · rfl
  · dsimp only
    rcases b.onDevice h (RtcState.tryConnect a isWrite) with e | ⟨b', _ | _⟩ <;> rfl

/-- R220: the rule of an operation of the Bus, the devices or the RTC neither reads nor writes the actuator records. -/
theorem ruleOf_withPwm [DecidableEq Ident] {j : Instr} (hj : Claims.isPwm j = false) (m : PwmMap Ident)
    (o : SideOperands Ident) (b : Block Ident) : ruleOf j o (b.withPwm m) = withPwmAnswer m (ruleOf j o b) := by
  cases j with
  | busRegister a => exact Block.register_withPwm m b a o.h
  | busBegin a isWrite =>
    simp only [ruleOf, Block.startTransaction, Block.release_withPwm]
    rcases b.release with e | b'
    · rfl
    · exact Block.connect_withPwm m b' a isWrite
  | busWrite v =>
    simp only [ruleOf, Block.writeByte, Block.withPwm_bus, Block.answer_onDevice_withPwm]
    rcases b.bus.selected with _ | h <;> rfl
  | busRead ack =>
    simp only [ruleOf, Block.readByte, Block.withPwm_bus, Block.answer_onDevice_withPwm]
    rcases b.bus.selected with _ | h <;> rfl
  | busEnd =>
    simp only [ruleOf, Block.endTransaction, Block.release_withPwm]
    rcases b.release with e | b' <;> rfl
  | devTryconnect _ _ | devReceive _ | devProduce _ | devDisconnect => exact Block.answer_onDevice_withPwm m b o.h _ _
  | rtcQuery | rtcSettime => exact Block.onDevice_withPwm m b o.h _
  | pwmPin _ | pwmResetall => cases hj

/-- R220: the rule of a PWM operation writes the actuator records alone, and from the records alone. -/
theorem ruleOf_pwm [DecidableEq Ident] {i : Instr} (hi : Claims.isPwm i = true) (o : SideOperands Ident) :
    ∃ g : PwmMap Ident → PwmMap Ident, ∀ b, ruleOf i o b = .ok (b.withPwm (g b.pwm), .unit) := by
  cases i with
  | pwmPin level => exact ⟨fun m => PwmMap.put o.id ((PwmMap.track m o.id).report level o.now) m, fun _ => rfl⟩
  | pwmResetall => exact ⟨fun m => m.map fun e => (e.1, e.2.neutral), fun _ => rfl⟩
  | _ => cases hi

/-- The records after the rule of an operation that is none of the PWM decoder. -/
theorem rule_pwm_of_isPwm_false [DecidableEq Ident] {j : Instr} {o : SideOperands Ident} {b b' : Block Ident}
    {x : Response} (hj : Claims.isPwm j = false) (e : ruleOf j o b = .ok (b', x)) : b'.pwm = b.pwm := by
  rcases (rule_units e).2.2 with ⟨_, rfl, _⟩ | ⟨rfl, _⟩ | hpwm
  · cases hj
  · cases hj
  · exact hpwm

theorem ne_register_of_isPwm {i : Instr} (hi : Claims.isPwm i = true) (a : Int) : i ≠ .busRegister a := by
  rintro rfl; cases hi

/-- Settles O43: the PWM rule finds the same records before and after the other rule, whose outcome does not depend on
them. -/
theorem pwmOperationsCommuteWithTheOthers : Obligations.PwmOperationsCommuteWithTheOthers := by
  unfold Obligations.PwmOperationsCommuteWithTheOthers
  intro i j s t oi oj hi hj hreg hs h ht
  obtain ⟨x, hrule, hresp⟩ := exec_completed h ht
  rw [entry_block_of_ne_register hreg] at hrule
  obtain ⟨_, _, hdone, _⟩ := rule_marks hrule
  have hpwm : t.block.pwm = (Claims.entered s).pwm := rule_pwm_of_isPwm_false hj hrule
  obtain ⟨g, hg⟩ := ruleOf_pwm hi oi
  have hlate := completes_of (s := Claims.on t oi) ht (entry_block_of_setupDone i hdone) (hg t.block)
  have hearly := completes_of (s := Claims.on s oi) hs (entry_block_of_ne_register (ne_register_of_isPwm hi) _)
    (hg (Claims.entered s))
  have hother : ruleOf j oj ((Claims.entered s).withPwm (g (Claims.entered s).pwm)) =
      .ok (t.block.withPwm (g (Claims.entered s).pwm), x) :=
    (ruleOf_withPwm hj _ oj _).trans (congrArg (withPwmAnswer _) hrule)
  refine ⟨_, _, _, .unit, x, hlate, hearly, completes_of hs (entry_block_of_ne_register hreg _) hother, ?_, ?_, ?_⟩
  · rw [hpwm]
  · simp [Claims.on, hresp]
  · simp [Claims.on]

end Sys2Proof.Machine
end

section
/-! PROOFS (30_encoding.md R100 to R106, R123). The lookup on OP finds the one row that owns a word, so the decoder
answers what that row builds (R106); a row fixes every field its operation does not hold, so no bit of a word of the row
is dropped (R105). -/

namespace Sys2Proof

/-! ## The row that owns a word -/

/-- The opcode alone tells the rows apart. -/
theorem row_eq_of_opField {r r' : OpRow} (hr : r ∈ opTable) (hr' : r' ∈ opTable)
    (h : opField r.pattern = opField r'.pattern) : r = r' :=
  List.inj_on_of_nodup_map opcodes_nodup hr hr' h

/-- The decoder on a word of a row is what the row builds from it. -/
theorem decode_of_owns {r : OpRow} (hr : r ∈ opTable) {w : Word} (ho : r.owns w = true) :
    decode w = .ok (r.build w) := by
  have hop := opField_of_owns hr ho
  have hfind : opTable.find? (fun q => opField q.pattern == opField w) = some r := by
    rcases hf : opTable.find? (fun q => opField q.pattern == opField w) with _ | q
    · exact absurd (List.find?_eq_none.mp hf r hr) (by simp [hop])
    · have hq : opField q.pattern = opField w := by simpa using List.find?_some hf
      rw [hf, row_eq_of_opField (List.mem_of_find?_eq_some hf) hr (hq.trans hop)]
  simp [decode, hfind, ho]

/-- A word decodes exactly when a row owns it. -/
theorem decodes_iff_owned {w : Word} : (∃ i, decode w = .ok i) ↔ ∃ r ∈ opTable, r.owns w = true := by
  constructor
  · rintro ⟨i, hi⟩
    obtain ⟨r, hr, ho, -⟩ := decode_ok hi
    exact ⟨r, hr, ho⟩
  · rintro ⟨r, hr, ho⟩
    exact ⟨_, decode_of_owns hr ho⟩

/-- The row that owns a word is its only one. -/
theorem owners_eq_singleton {r : OpRow} (hr : r ∈ opTable) {w : Word} (ho : r.owns w = true) :
    opTable.filter (fun q => q.owns w) = [r] := by
  rw [← List.perm_singleton, List.perm_ext_iff_of_nodup (opcodes_nodup.of_map.filter _) (List.nodup_singleton r)]
  intro q
  rw [List.mem_filter, List.mem_singleton]
  constructor
  · rintro ⟨hq, hqo⟩
    exact row_eq_of_opField hq hr ((opField_of_owns hq hqo).symm.trans (opField_of_owns hr ho))
  · rintro rfl
    exact ⟨hr, ho⟩

/-- As no word has two rows, exactly one row owns a word when any does. -/
theorem owners_length_eq_one_iff {w : Word} :
    (opTable.filter fun r => r.owns w).length = 1 ↔ ∃ r ∈ opTable, r.owns w = true := by
  constructor
  · intro h
    obtain ⟨r, hr⟩ := List.length_eq_one_iff.mp h
    exact ⟨r, List.mem_filter.mp (hr ▸ List.mem_singleton_self r)⟩
  · rintro ⟨r, hr, ho⟩
    rw [owners_eq_singleton hr ho, List.length_singleton]

/-- The thirteen opcodes of R103. -/
theorem opcode_of_row : ∀ r ∈ opTable, (opField r.pattern).toNat ∈
    [0x01, 0x02, 0x03, 0x04, 0x05, 0x10, 0x11, 0x12, 0x13, 0x20, 0x21, 0x30, 0x31] := by
  rw [forall_rows]; decide +kernel

/-! ## The fields of a word of a row -/

/-- The row's mask and pattern demand the bits `v` of the `len` bits from `start` on. -/
def OpRow.fixes (r : OpRow) (start len : Nat) (v : BitVec len) : Bool :=
  r.mask.extractLsb' start len == BitVec.allOnes len && r.pattern.extractLsb' start len == v

/-- A word of the row has the bits the row demands. -/
theorem OpRow.extract_of_fixes {r : OpRow} {w : Word} (ho : r.owns w = true) {start len : Nat} {v : BitVec len}
    (h : r.fixes start len v = true) : w.extractLsb' start len = v := by
  simp only [OpRow.fixes, Bool.and_eq_true, beq_iff_eq] at h
  obtain ⟨hmask, rfl⟩ := h
  rw [← beq_iff_eq.mp ho, BitVec.extractLsb'_and, hmask, BitVec.and_allOnes]

theorem OpRow.flagField_of_fixes {r : OpRow} {w : Word} (ho : r.owns w = true) {f : Bool}
    (h : r.fixes 23 1 (BitVec.ofBool f) = true) : flagField w = f := by
  have h23 := congrArg (BitVec.getLsbD · 0) (OpRow.extract_of_fixes ho h)
  simpa [flagField] using h23

/-- A word whose R field is zero is the word of its four other fields (R101). -/
theorem packFields_fields {w : Word} (hz : w.extractLsb' 8 8 = 0#8) :
    packFields (opField w) (flagField w) (w.extractLsb' 16 7) (dataField w) = w := by
  apply BitVec.eq_of_getLsbD_eq
  intro i hi
  rw [getLsbD_packFields _ _ _ _ _ hi]
  split_ifs with hd hR ha hf
  · simp [dataField, hd]
  · have hbit := congrArg (BitVec.getLsbD · (i - 8)) hz
    have h8 : i - 8 < 8 := by omega
    simpa [h8, show 8 + (i - 8) = i by omega] using hbit.symm
  · simp [show i - 16 < 7 by omega, show 16 + (i - 16) = i by omega]
  · simp [flagField, hf]
  · simp [opField, show i - 24 < 8 by omega, show 24 + (i - 24) = i by omega]

/-- A word of a row is the word of the row's opcode and its own F, A and D. -/
theorem packFields_of_owns {r : OpRow} {w : Word} (ho : r.owns w = true) {op : Byte} {f : Bool} {a : BitVec 7} {d : Byte}
    (hop : r.fixes 24 8 op = true) (hR : r.fixes 8 8 0#8 = true) (hf : flagField w = f)
    (ha : w.extractLsb' 16 7 = a) (hd : dataField w = d) : packFields op f a d = w := by
  have hopw : opField w = op := OpRow.extract_of_fixes ho hop
  rw [← hopw, ← hf, ← ha, ← hd]
  exact packFields_fields (OpRow.extract_of_fixes ho hR)

/-- The address field read as an integer and put back (R101, R141). -/
theorem ofInt_addrField (w : Word) : BitVec.ofInt 7 (addrField w).val = w.extractLsb' 16 7 := by
  rw [BitVec.ofInt_natCast]
  exact BitVec.eq_of_toNat_eq (Nat.mod_eq_of_lt (addrField w).isLt)

theorem addrField_wf (w : Word) : (Instr.busRegister (addrField w).val).wf = true := by
  have := (addrField w).isLt
  simp only [Instr.wf, decide_eq_true_eq]
  omega

/-- What a row builds from a word of its own is well formed, and its word is that word: of each field, either the
operation holds it or the row fixes it (R105). -/
theorem encode_build : ∀ r ∈ opTable, ∀ w, r.owns w = true → (r.build w).wf = true ∧ encode (r.build w) = w := by
  rw [forall_rows]
  refine ⟨?busRegister, ?busBegin, ?busWrite, ?busRead, ?busEnd, ?devTryconnect, ?devReceive, ?devProduce,
    ?devDisconnect, ?rtcQuery, ?rtcSettime, ?pwmPin, ?pwmResetall⟩ <;> intro w ho
  case busRegister =>
    exact ⟨addrField_wf w, packFields_of_owns ho rfl rfl (OpRow.flagField_of_fixes ho rfl) (ofInt_addrField w).symm
      (OpRow.extract_of_fixes ho rfl)⟩
  case busBegin | devTryconnect =>
    exact ⟨rfl, packFields_of_owns ho rfl rfl rfl rfl (OpRow.extract_of_fixes ho rfl)⟩
  case busWrite | devReceive =>
    exact ⟨rfl, packFields_of_owns ho rfl rfl (OpRow.flagField_of_fixes ho rfl) (OpRow.extract_of_fixes ho rfl) rfl⟩
  case busRead | devProduce | pwmPin =>
    exact ⟨rfl, packFields_of_owns ho rfl rfl rfl (OpRow.extract_of_fixes ho rfl) (OpRow.extract_of_fixes ho rfl)⟩
  case busEnd | devDisconnect | rtcQuery | rtcSettime | pwmResetall =>
    exact ⟨rfl, packFields_of_owns ho rfl rfl (OpRow.flagField_of_fixes ho rfl) (OpRow.extract_of_fixes ho rfl)
      (OpRow.extract_of_fixes ho rfl)⟩

/-- Every well-formed operation's word is in the row that builds the operation from it. -/
theorem inItsRow (i : Instr) : Laws.InItsRow.Statement i := by
  cases i with
  | busRegister a => exact Laws.InItsRow.busRegister a
  | busBegin a w => exact Laws.InItsRow.busBegin a w
  | busWrite v => exact Laws.InItsRow.busWrite v
  | busRead ack => exact Laws.InItsRow.busRead ack
  | busEnd => exact Laws.InItsRow.busEnd
  | devTryconnect a w => exact Laws.InItsRow.devTryconnect a w
  | devReceive v => exact Laws.InItsRow.devReceive v
  | devProduce ack => exact Laws.InItsRow.devProduce ack
  | devDisconnect => exact Laws.InItsRow.devDisconnect
  | rtcQuery => exact Laws.InItsRow.rtcQuery
  | rtcSettime => exact Laws.InItsRow.rtcSettime
  | pwmPin level => exact Laws.InItsRow.pwmPin level
  | pwmResetall => exact Laws.InItsRow.pwmResetall

/-! ## Round trips -/

/-- Settles O1: the operation's word is in the row that builds the operation from it, and the decoder finds that row. -/
theorem encodeThenDecodeReturnsTheOperation : Obligations.EncodeThenDecodeReturnsTheOperation := by
  unfold Obligations.EncodeThenDecodeReturnsTheOperation
  intro i hi
  obtain ⟨r, hr, ho, hb⟩ := inItsRow i hi
  rw [decode_of_owns hr ho, hb]

/-- Settles O2: a decoded operation was built by the row that owns the word. -/
theorem decodedWordIsTheWordOfItsOperation : Obligations.DecodedWordIsTheWordOfItsOperation := by
  unfold Obligations.DecodedWordIsTheWordOfItsOperation
  intro w i h
  obtain ⟨r, hr, ho, rfl⟩ := decode_ok h
  exact encode_build r hr w ho

/-- Settles O4: the operations are well formed and have these words, so by O1 the words decode to them. -/
theorem workedEncodingsDecode : Obligations.WorkedEncodingsDecode := by
  unfold Obligations.WorkedEncodingsDecode
  intro x hx
  suffices h : x.2.wf = true ∧ encode x.2 = x.1 by
    obtain ⟨hwf, hword⟩ := h
    exact ⟨hword ▸ encodeThenDecodeReturnsTheOperation x.2 hwf, hword⟩
  revert x
  decide +kernel

end Sys2Proof

namespace Sys2Proof.Machine

/-! ## Illegal words -/

/-- A step of a live machine with a word that is no operation refuses the word and does nothing else (R105, R246). -/
theorem step_illegalWord {s : State} {op : HostOp} {rest : List HostOp} (hp : s.pending = op :: rest) (hl : s.live)
    (hd : ¬ ∃ i, decode op.word = .ok i) : step s = .next ((s.take op rest).refuse .illegalWord) := by
  obtain ⟨hcfg, href⟩ := hl
  rcases he : decode op.word with e | i
  · simp [step, State.runNext, hp, he, State.precheck, State.take, hcfg, href]
  · exact absurd ⟨i, he⟩ hd

/-- Settles O3: a row that owns a word is its only one and the one the decoder finds, a word without one takes the
illegal-word branch of the step, and a word with a row has one of the thirteen opcodes. -/
theorem legalWordsAreThoseOfExactlyOneRow : Obligations.LegalWordsAreThoseOfExactlyOneRow := by
  unfold Obligations.LegalWordsAreThoseOfExactlyOneRow
  refine ⟨fun w => decodes_iff_owned.trans owners_length_eq_one_iff.symm, fun s op rest hp hl hn => ?_,
    fun w hop h1 => ?_⟩
  · exact step_illegalWord hp hl fun hd => hn (owners_length_eq_one_iff.mpr (decodes_iff_owned.mp hd))
  · obtain ⟨r, hr, ho⟩ := owners_length_eq_one_iff.mp h1
    exact hop (opField_of_owns hr ho ▸ opcode_of_row r hr)

end Sys2Proof.Machine
end

section
/-! PROOFS (40_bus.md). The preconditions of every operation (R140), the outcome of each rule of the Bus (R141 to R145,
R148) and of an operation that finds no RTC (R147), and the frame of every operation on the devices. What a received and
a produced byte make of an RTC (R162 to R165) is said once, of the RTC alone, for either port. -/

namespace Sys2Proof.Machine

variable {Ident : Type}

/-! ## The preconditions -/

theorem State.precheck_noCircuit {s : State Ident} (hc : s.block.cfgError ≠ none) (go : Result Ident) :
    s.precheck go = .fault .noCircuit := by
  obtain ⟨c, hc⟩ := Option.ne_none_iff_exists'.mp hc
  simp only [State.precheck, hc]

theorem State.precheck_refused {s : State Ident} (hc : s.block.cfgError = none) (hr : s.block.refused ≠ none)
    (go : Result Ident) : s.precheck go = .next s := by
  obtain ⟨q, hr⟩ := Option.ne_none_iff_exists'.mp hr
  simp only [State.precheck, hc, hr]

/-- A step with a word pending, legal or not, meets the preconditions first, the word off the port (R105, R248). -/
theorem step_eq_precheck {s : State} {op : HostOp} {rest : List HostOp} (hp : s.pending = op :: rest) :
    ∃ go, step s = (s.take op rest).precheck go := by
  rcases hd : decode op.word with e | i
  · exact ⟨.next ((s.take op rest).refuse .illegalWord), by simp only [step, State.runNext, hp, hd]⟩
  · exact ⟨_, (step_decoded hp hd).trans (exec_eq i _)⟩

/-- Settles O6: an operation and a step both begin with the preconditions. -/
theorem noCircuitNoStepAndRefusedChangesNothing : Obligations.NoCircuitNoStepAndRefusedChangesNothing := by
  unfold Obligations.NoCircuitNoStepAndRefusedChangesNothing
  refine ⟨fun i s => ?_, fun s op rest hp => ?_⟩
  · rw [exec_eq]
    exact ⟨fun hc => State.precheck_noCircuit hc _, fun hc hr => State.precheck_refused hc hr _⟩
  · obtain ⟨go, hstep⟩ := step_eq_precheck hp
    rw [hstep]
    exact ⟨fun hc => State.precheck_noCircuit (s := s.take op rest) hc go,
      fun hc hr => State.precheck_refused (s := s.take op rest) hc hr go⟩

/-! ## Registration -/

theorem busAddr_of_outside {a : Int} (ha : a < 0 ∨ a > 127) : busAddr a = none := if_pos ha

theorem busAddr_val (x : Addr7) : busAddr (x.val : Int) = some x := by
  have hin : ¬ ((x.val : Int) < 0 ∨ 127 < (x.val : Int)) := by omega
  rw [busAddr, if_neg hin, Int.toNat_natCast, Fin.ofNat_eq_cast, Fin.cast_val_eq_self]

section register

variable {b : Block Ident} {a : Int} {x : Addr7} {h : Handle}

/-- The first check. -/
theorem Block.register_late (hs : b.setupDone = true) : b.register a h = .error (.refuse .lateRegister) := by
  simp only [Block.register, hs, if_true]

/-- The second check. -/
theorem Block.register_addrRange (hs : b.setupDone = false) (ha : a < 0 ∨ a > 127) :
    b.register a h = .error (.raise .addrRange) := by
  simp [Block.register, hs, busAddr_of_outside ha]

/-- The third check. -/
theorem Block.register_dupAddr (hs : b.setupDone = false) (hb : b.bound x ≠ none) :
    b.register x.val h = .error (.raise .dupAddr) := by
  obtain ⟨k, hk⟩ := Option.ne_none_iff_exists'.mp hb
  simp [Block.register, hs, busAddr_val, hk]

/-- The last check. -/
theorem Block.register_unknownHandle (hs : b.setupDone = false) (hb : b.bound x = none) (hd : b.device h = none) :
    b.register x.val h = .error (.refuse .unknownHandle) := by
  simp [Block.register, hs, busAddr_val, hb, hd]

theorem Block.register_binds (hs : b.setupDone = false) (hb : b.bound x = none) (hd : b.device h ≠ none) :
    b.register x.val h = .ok (b.bind x h, .unit) := by
  obtain ⟨d, hd⟩ := Option.ne_none_iff_exists'.mp hd
  simp [Block.register, hs, busAddr_val, hb, hd]

end register

/-- An operation whose rule raises, raises. -/
theorem raises_of {i : Instr} {s : State} {b : Block} {c : ConfigError} (hl : s.live) (he : (entry i s).block = b)
    (h : ruleOf i s.operands b = .error (.raise c)) :
    exec i s = .next { s with block := { b with cfgError := some c } } := by
  rw [exec_live i hl, he, h]
  subst he
  cases i <;> rfl

/-- Settles O10: each check decides where those before it have passed. -/
theorem registerChecksInOrderThenBinds : Obligations.RegisterChecksInOrderThenBinds := by
  unfold Obligations.RegisterChecksInOrderThenBinds
  intro s a hl
  refine ⟨fun hs => refuses_of hl rfl (Block.register_late hs),
    fun hs ha => raises_of hl rfl (Block.register_addrRange hs ha), ?_⟩
  rintro x hs rfl
  exact ⟨fun hb => raises_of hl rfl (Block.register_dupAddr hs hb),
    fun hb hd => refuses_of hl rfl (Block.register_unknownHandle hs hb hd),
    fun hb hd => completes_of hl rfl (Block.register_binds hs hb hd)⟩

/-! ## START and STOP -/

/-- A release disconnects the selected RTC, if there is one (R142, R145). -/
theorem Block.release_of_released {b m : Block} (h : Claims.Released b m) : b.release = .ok m := by
  rcases h with ⟨hs, rfl⟩ | ⟨h, r, hs, hr, rfl⟩
  · simp only [Block.release, hs]
  · simp only [Block.release, hs, Block.onDevice_rtc RtcState.disconnect hr]
    rfl

/-- Where the selection is sound a release is possible (R146). -/
theorem Block.exists_released {b : Block} (h : b.selectionSound) : ∃ m, Claims.Released b m := by
  rw [Block.selectionSound_iff] at h
  rcases hs : b.bus.selected with _ | k
  · exact ⟨b, .inl ⟨hs, rfl⟩⟩
  · obtain ⟨r, hr, _⟩ := h k hs
    exact ⟨_, .inr ⟨k, r, hs, hr, rfl⟩⟩

section connect

variable {b m : Block Ident} {a : Addr7} {h : Handle} {r : RtcState} (isWrite : Bool)

theorem Block.startTransaction_of_release (hm : b.release = .ok m) :
    b.startTransaction a isWrite = m.connect a isWrite := by
  simp only [Block.startTransaction, hm]

theorem Block.connect_miss (hb : b.bound a = none) : b.connect a isWrite = .ok (b, .ack false) := by
  simp only [Block.connect, hb]

/-- The device bound at the address has another configured one (R161). -/
theorem Block.connect_nack (hb : b.bound a = some h) (hr : b.hasRtc h r) (ha : a ≠ r.addr) :
    b.connect a isWrite = .ok (b, .ack false) := by
  simp only [Block.connect, hb, Block.onDevice_rtc (RtcState.tryConnect a isWrite) hr, RtcState.tryConnect, if_neg ha,
    Block.setDevice_same hr]

theorem Block.connect_ack (hb : b.bound a = some h) (hr : b.hasRtc h r) (ha : a = r.addr) :
    b.connect a isWrite =
      .ok ((b.setDevice h (.rtc { r with ptrLoaded := false })).select (some h), .ack true) := by
  simp only [Block.connect, hb, Block.onDevice_rtc (RtcState.tryConnect a isWrite) hr, RtcState.tryConnect, if_pos ha]

end connect

theorem Block.endTransaction_of_release {b m : Block Ident} (hm : b.release = .ok m) :
    b.endTransaction = .ok (m, .unit) := by
  simp only [Block.endTransaction, hm]

/-- A START is the look-up in the block its release leaves (R142, R248). -/
theorem completes_busBegin {s : State} {m b : Block} {a : Addr7} {isWrite : Bool} {x : Response} (hl : s.live)
    (hm : Claims.Released (Claims.entered s) m) (hc : m.connect a isWrite = .ok (b, x)) :
    Completes (.busBegin a isWrite) s b x :=
  completes_of hl rfl ((Block.startTransaction_of_release isWrite (Block.release_of_released hm)).trans hc)

/-- Settles O11: after the release the look-up misses, finds a device that does not acknowledge, or one that does. -/
theorem startReleasesThenSelects : Obligations.StartReleasesThenSelects := by
  unfold Obligations.StartReleasesThenSelects
  intro s a isWrite m hl hm
  refine ⟨fun hb => ?_, fun h r hb hr => ⟨fun ha => ?_, fun ha => ?_⟩⟩
  · exact completes_busBegin hl hm (Block.connect_miss isWrite hb)
  · exact completes_busBegin hl hm (Block.connect_nack isWrite hb hr ha)
  · exact completes_busBegin hl hm (Block.connect_ack isWrite hb hr ha)

/-- Settles O12: a STOP is the release alone. -/
theorem stopReleasesTheSelectedDevice : Obligations.StopReleasesTheSelectedDevice := by
  unfold Obligations.StopReleasesTheSelectedDevice
  intro s m hl hm
  exact completes_of hl rfl (Block.endTransaction_of_release (Block.release_of_released hm))

/-! ## A byte through the Bus with nothing selected -/

theorem Block.writeByte_unselected {b : Block Ident} (hs : b.bus.selected = none) (v : Byte) (t : Millis) :
    b.writeByte v t = .ok (b, .ack false) := by
  simp only [Block.writeByte, hs]

theorem Block.readByte_unselected {b : Block Ident} (hs : b.bus.selected = none) (ack : Bool) (t : Millis) :
    b.readByte ack t = .ok (b, .byte Config.idleRead) := by
  simp only [Block.readByte, hs]

/-- What a release leaves as it is: the bus map, the marks and the setup flag; and nothing stays selected. -/
theorem released_frame {b m : Block} (h : Claims.Released b m) :
    m.bus.selected = none ∧ m.bus.map = b.bus.map ∧ m.cfgError = b.cfgError ∧ m.refused = b.refused ∧
      m.setupDone = b.setupDone := by
  rcases h with ⟨hs, rfl⟩ | ⟨_, _, _, _, rfl⟩
  · exact ⟨hs, rfl, rfl, rfl, rfl⟩
  · exact ⟨rfl, rfl, rfl, rfl, rfl⟩

/-- Settles O15: the release is possible, the look-up misses, and the block it leaves is past the setup phase with
nothing selected. -/
theorem addressMissLeavesNothingToReach : Obligations.AddressMissLeavesNothingToReach := by
  unfold Obligations.AddressMissLeavesNothingToReach
  intro s a isWrite ack v o hl hsound hmiss
  have hsound' : (Claims.entered s).selectionSound := hsound
  obtain ⟨m, hm⟩ := Block.exists_released hsound'
  obtain ⟨hsel, hmap, hcfg, href, hdone⟩ := released_frame hm
  have hbound : m.bound a = none := by rw [Block.bound, hmap]; exact hmiss
  have hbegin := completes_busBegin hl hm (Block.connect_miss isWrite hbound)
  have hlive : m.cfgError = none ∧ m.refused = none := ⟨hcfg.trans hl.1, href.trans hl.2⟩
  exact ⟨_, hbegin, rfl, hsel,
    completes_of hlive (entry_block_of_setupDone _ hdone) (Block.writeByte_unselected hsel v o.t),
    completes_of hlive (entry_block_of_setupDone _ hdone) (Block.readByte_unselected hsel ack o.t)⟩

/-! ## A received byte -/

section receive

variable {r : RtcState} {p : Ptr} {v : Byte}

theorem RtcState.writeSideEffect_halt (h0 : p = regSeconds) (hv : haltBit v = true) (t : Millis) :
    r.writeSideEffect p v t = { r with halted := true } := by
  simp only [RtcState.writeSideEffect, RtcState.secondsWrite, h0, hv, if_true]

theorem RtcState.writeSideEffect_run (h0 : p = regSeconds) (hv : haltBit v = false) (t : Millis) :
    r.writeSideEffect p v t = { r with halted := false }.resync t := by
  simp [RtcState.writeSideEffect, RtcState.secondsWrite, h0, hv]

theorem RtcState.writeSideEffect_hours (h2 : p = regHours) (t : Millis) :
    r.writeSideEffect p v t = r.hoursWrite v := by
  have h0 : ¬ regHours = regSeconds := by decide
  simp only [RtcState.writeSideEffect, h2, if_neg h0, if_true]

theorem RtcState.writeSideEffect_other (h0 : p ≠ regSeconds) (h2 : p ≠ regHours) (t : Millis) :
    r.writeSideEffect p v t = r := by
  simp only [RtcState.writeSideEffect, if_neg h0, if_neg h2]

/-- No side effect writes the address, the pointer or the framing (R167). -/
theorem RtcState.writeSideEffect_frame (r : RtcState) (p : Ptr) (v : Byte) (t : Millis) :
    (r.writeSideEffect p v t).addr = r.addr ∧ (r.writeSideEffect p v t).ptr = r.ptr ∧
      (r.writeSideEffect p v t).ptrLoaded = r.ptrLoaded := by
  unfold RtcState.writeSideEffect RtcState.secondsWrite
  split
  · split <;> exact ⟨rfl, rfl, rfl⟩
  · split <;> exact ⟨rfl, rfl, rfl⟩

theorem RtcState.receiveByte_pointer (hp : r.ptrLoaded = false) (v : Byte) (t : Millis) :
    r.receiveByte v t = ({ r with ptr := pointerOf v, ptrLoaded := true }, true) := by
  simp [RtcState.receiveByte, hp]

theorem RtcState.receiveByte_data (hp : r.ptrLoaded = true) (v : Byte) (t : Millis) :
    r.receiveByte v t = (((r.write r.ptr v).writeSideEffect r.ptr v t).advance, true) := by
  simp only [RtcState.receiveByte, hp, if_true]

/-- The RTC acknowledges every byte (R170). -/
theorem RtcState.receiveByte_ack (r : RtcState) (v : Byte) (t : Millis) : (r.receiveByte v t).2 = true := by
  unfold RtcState.receiveByte
  split <;> rfl

/-- The next pointer, as a number (R77). -/
theorem RtcState.val_ptr_advance (r : RtcState) : r.advance.ptr.val = (r.ptr.val + 1) % 64 := rfl

end receive

/-- What receiving a byte makes of an RTC: the pointer byte's state, or the data byte stored with the side effect of its
offset and the pointer advanced (R162, R163, R167). -/
theorem received_receiveByte (r : RtcState) (v : Byte) (t : Millis) :
    Claims.Received r v t (r.receiveByte v t).1 := by
  refine ⟨fun hp => ?_, fun hp => ?_⟩
  · rw [RtcState.receiveByte_pointer hp]
    exact ⟨rfl, rfl, rfl, rfl, rfl, rfl, rfl, rfl⟩
  · rw [RtcState.receiveByte_data hp]
    obtain ⟨haddr, hptr, hloaded⟩ := (r.write r.ptr v).writeSideEffect_frame r.ptr v t
    refine ⟨?_, hloaded.trans hp, haddr, ?_, fun p hne => ?_, fun h0 hv => ?_, fun h0 hv => ?_, fun h2 => ?_,
      fun h0 h2 => ?_⟩
    · rw [RtcState.val_ptr_advance, hptr, RtcState.write_ptr]
    · rw [RtcState.advance_regs, writeSideEffect_regs]
      exact r.read_write_self r.ptr v
    · rw [RtcState.advance_regs, writeSideEffect_regs]
      exact r.read_write_of_ne v hne
    · rw [RtcState.writeSideEffect_halt (Fin.ext h0) hv]
      exact ⟨rfl, rfl, rfl, rfl⟩
    · rw [RtcState.writeSideEffect_run (Fin.ext h0) hv]
      exact ⟨rfl, rfl, rfl, rfl⟩
    · rw [RtcState.writeSideEffect_hours (Fin.ext h2)]
      exact ⟨rfl, rfl, rfl, rfl⟩
    · rw [RtcState.writeSideEffect_other (fun e => h0 (congrArg Fin.val e)) (fun e => h2 (congrArg Fin.val e))]
      exact ⟨rfl, rfl, rfl, rfl⟩

theorem Block.writeByte_selected {b : Block Ident} {h : Handle} {r : RtcState} (hs : b.bus.selected = some h)
    (hr : b.hasRtc h r) (v : Byte) (t : Millis) :
    b.writeByte v t = .ok (b.setDevice h (.rtc (r.receiveByte v t).1), .ack true) := by
  simp only [Block.writeByte, hs, Block.onDevice_rtc (RtcState.receiveByte v t) hr, answer, r.receiveByte_ack]

/-- Settles O13: the selected RTC receives the byte by the rule of either port, and acknowledges it. -/
theorem busWriteReachesTheSelectedDevice : Obligations.BusWriteReachesTheSelectedDevice := by
  unfold Obligations.BusWriteReachesTheSelectedDevice
  intro s v hl
  refine ⟨fun hs => ?_, fun h r hs hr => ⟨_, received_receiveByte r v s.operands.t, ?_⟩⟩
  · exact completes_of hl rfl (Block.writeByte_unselected (b := Claims.entered s) hs v s.operands.t)
  · exact completes_of hl rfl (Block.writeByte_selected (b := Claims.entered s) hs hr v s.operands.t)

/-! ## A produced byte -/

/-- Derivation writes the time registers of a running clock and nothing else (R186). -/
theorem derived_derive (r : RtcState) (t : Millis) : Claims.Derived r t (r.derive t) := by
  refine ⟨fun hh => if_pos hh, fun hh => ?_⟩
  have hd : r.derive t = r.materialize (r.instantAt t) := by simp [RtcState.derive, hh]
  rw [hd]
  refine ⟨fun p => ?_, fun p hp => ?_, rfl⟩
  · simp only [Fin.getElem_fin, RtcState.materialize_regs, getElem_writeTimeBytes, p.isLt, dif_pos, hh,
      RtcState.instantAt]
  · simp only [Fin.getElem_fin, RtcState.materialize_regs, getElem_writeTimeBytes, Nat.not_lt.mpr hp, dif_neg,
      not_false_eq_true]

/-- A byte is produced by derivation and then read at the pointer, which advances if it is acknowledged (R165). -/
theorem produced_produceByte (r : RtcState) (ack : Bool) (t : Millis) :
    Claims.Produced r ack t (r.produceByte ack t).1 (r.produceByte ack t).2 := by
  refine ⟨r.derive t, derived_derive r t, rfl, ?_, ?_⟩
  · rw [← r.derive_ptr t]
    cases ack <;> rfl
  · rw [← r.derive_ptr t]
    cases ack <;> rfl

theorem Block.readByte_selected {b : Block Ident} {h : Handle} {r : RtcState} (hs : b.bus.selected = some h)
    (hr : b.hasRtc h r) (ack : Bool) (t : Millis) :
    b.readByte ack t = .ok (b.setDevice h (.rtc (r.produceByte ack t).1), .byte (r.produceByte ack t).2) := by
  simp only [Block.readByte, hs, Block.onDevice_rtc (RtcState.produceByte ack t) hr, answer]

/-- Settles O14: the selected RTC produces the byte by the rule of either port. -/
theorem busReadComesFromTheSelectedDevice : Obligations.BusReadComesFromTheSelectedDevice := by
  unfold Obligations.BusReadComesFromTheSelectedDevice
  intro s ack hl
  refine ⟨fun hs => ?_, fun h r hs hr => ⟨_, _, produced_produceByte r ack s.operands.t, ?_⟩⟩
  · exact completes_of hl rfl (Block.readByte_unselected (b := Claims.entered s) hs ack s.operands.t)
  · exact completes_of hl rfl (Block.readByte_selected (b := Claims.entered s) hs hr ack s.operands.t)

/-! ## Operations that find no RTC -/

section noRtc

variable {b m : Block} {h : Handle} {q : RefusalReason}

/-- The dispatch to a handle without an RTC refuses, for the reason of what is there (R147). -/
theorem Block.onDevice_of_noRtc {α : Type} (hn : Claims.NoRtc b h q) (rule : RtcState → RtcState × α) :
    b.onDevice h rule = .error (.refuse q) := by
  rcases hn with ⟨hd, rfl⟩ | ⟨hd, rfl⟩ <;> simp only [Block.onDevice, hd]

/-- So does every operation on the handle. -/
theorem ruleOf_handle_of_noRtc {o : SideOperands} (hn : Claims.NoRtc b o.h q) (a : Addr7) (f : Bool) (v : Byte) :
    ∀ i ∈ [Instr.devTryconnect a f, .devReceive v, .devProduce f, .devDisconnect, .rtcQuery, .rtcSettime],
      ruleOf i o b = .error (.refuse q) := by
  simp [ruleOf, Block.onDevice_of_noRtc hn, answer]

/-- So does every operation of the Bus where the handle is the selected one: a byte goes to it, a START and a STOP
disconnect it. -/
theorem ruleOf_selected_of_noRtc (hs : b.bus.selected = some h) (hn : Claims.NoRtc b h q) (o : SideOperands)
    (a : Addr7) (f : Bool) (v : Byte) :
    ∀ i ∈ [Instr.busBegin a f, .busWrite v, .busRead f, .busEnd], ruleOf i o b = .error (.refuse q) := by
  have hrel : b.release = .error (.refuse q) := by simp only [Block.release, hs, Block.onDevice_of_noRtc hn]
  simp [ruleOf, Block.startTransaction, Block.endTransaction, hrel, Block.writeByte, Block.readByte, hs,
    Block.onDevice_of_noRtc hn, answer]

/-- So does a START at an address bound to the handle, after its release. -/
theorem Block.startTransaction_of_noRtc {a : Addr7} (isWrite : Bool) (hm : b.release = .ok m)
    (hb : m.bound a = some h) (hn : Claims.NoRtc m h q) : b.startTransaction a isWrite = .error (.refuse q) := by
  rw [Block.startTransaction_of_release isWrite hm]
  simp only [Block.connect, hb, Block.onDevice_of_noRtc hn]

end noRtc

/-- An operation other than a registration whose rule refuses leaves the block it entered, but for the mark. -/
theorem refuses_of_ne_register {i : Instr} {s : State} {q : RefusalReason} (hl : s.live)
    (hi : ∀ a, i ≠ .busRegister a) (h : ruleOf i s.operands (Claims.entered s) = .error (.refuse q)) :
    Refuses i s (Claims.entered s) q :=
  refuses_of hl (entry_block_of_ne_register hi s) h

/-- Settles O23: the dispatch refuses at the handle, at the selected device, and at the bound one after the release,
whose disconnect a refused operation does not keep. -/
theorem operationsWithoutAnRtcAreRefused : Obligations.OperationsWithoutAnRtcAreRefused := by
  unfold Obligations.OperationsWithoutAnRtcAreRefused
  intro s q hl
  refine ⟨fun hn a f v i hi => ?_, fun h hs hn a f v i hi => ?_, fun m h a f hm hb hn => ?_⟩
  · refine refuses_of_ne_register hl ?_ (ruleOf_handle_of_noRtc (b := Claims.entered s) hn a f v i hi)
    rintro k rfl
    simp at hi
  · refine refuses_of_ne_register hl ?_ (ruleOf_selected_of_noRtc (b := Claims.entered s) hs hn s.operands a f v i hi)
    rintro k rfl
    simp at hi
  · exact refuses_of hl rfl (Block.startTransaction_of_noRtc f (Block.release_of_released hm) hb hn)

/-! ## The frame of each operation on the devices -/

/-- The block b' is b with its RTC at the handle changed by a rule. -/
def Block.SetsRtc (b b' : Block Ident) (h : Handle) (rule : RtcState → RtcState) : Prop :=
  ∃ r, b.hasRtc h r ∧ b' = b.setDevice h (.rtc (rule r))

theorem Block.SetsRtc.device_of_ne {b b' : Block Ident} {h k : Handle} {rule : RtcState → RtcState}
    (hset : b.SetsRtc b' h rule) (hk : k ≠ h) : b'.device k = b.device k := by
  obtain ⟨r, _, rfl⟩ := hset
  exact b.device_setDevice_of_ne _ hk

theorem Block.SetsRtc.eq_rule {b b' : Block Ident} {h : Handle} {rule : RtcState → RtcState} {r r' : RtcState}
    (hset : b.SetsRtc b' h rule) (hr : b.hasRtc h r) (hr' : b'.hasRtc h r') : r' = rule r := by
  obtain ⟨_, h₀, rfl⟩ := hset
  cases h₀.symm.trans hr
  cases (b.device_setDevice_self h (.rtc (rule r)) _ hr).symm.trans hr'
  rfl

/-- A completed dispatch sets the RTC at the handle. -/
theorem onDevice_setsRtc {α : Type} {b b' : Block Ident} {h : Handle} {rule : RtcState → RtcState × α} {y : α}
    (e : b.onDevice h rule = .ok (b', y)) : b.SetsRtc b' h fun r => (rule r).1 := by
  obtain ⟨r, hr, hb, _⟩ := onDevice_ok e
  exact ⟨r, hr, hb⟩

/-- So does one whose answer became the operation's response. -/
theorem answer_onDevice_setsRtc {α : Type} {wrap : α → Response} {b b' : Block Ident} {h : Handle}
    {rule : RtcState → RtcState × α} {x : Response} (e : answer wrap (b.onDevice h rule) = .ok (b', x)) :
    b.SetsRtc b' h fun r => (rule r).1 := by
  obtain ⟨_, e, _⟩ := answer_ok e
  exact onDevice_setsRtc e

theorem writeByte_setsRtc {b b' : Block Ident} {h : Handle} {v : Byte} {t : Millis} {x : Response}
    (hs : b.bus.selected = some h) (e : b.writeByte v t = .ok (b', x)) :
    b.SetsRtc b' h fun r => (r.receiveByte v t).1 := by
  simp only [Block.writeByte, hs] at e
  exact answer_onDevice_setsRtc e

theorem readByte_setsRtc {b b' : Block Ident} {h : Handle} {ack : Bool} {t : Millis} {x : Response}
    (hs : b.bus.selected = some h) (e : b.readByte ack t = .ok (b', x)) :
    b.SetsRtc b' h fun r => (r.produceByte ack t).1 := by
  simp only [Block.readByte, hs] at e
  exact answer_onDevice_setsRtc e

/-- A release leaves every device that is not selected. -/
theorem release_device_of_not_selected {b m : Block Ident} {h : Handle} (e : b.release = .ok m)
    (hn : b.bus.selected ≠ some h) : m.device h = b.device h := by
  rcases release_ok e with ⟨_, rfl⟩ | ⟨k, r, hs, _, rfl⟩
  · rfl
  · have hk : h ≠ k := fun ek => hn (ek ▸ hs)
    rw [Block.device_select, Block.device_setDevice_of_ne b _ hk]

theorem release_bound {b m : Block Ident} (e : b.release = .ok m) (a : Addr7) : m.bound a = b.bound a := by
  rcases release_ok e with ⟨_, rfl⟩ | ⟨_, _, _, _, rfl⟩ <;> rfl

/-- A look-up leaves every device that is not bound at its address. -/
theorem connect_device_of_not_bound {b b' : Block Ident} {a : Addr7} {w : Bool} {x : Response} {h : Handle}
    (e : b.connect a w = .ok (b', x)) (hn : b.bound a ≠ some h) : b'.device h = b.device h := by
  rcases connect_ok e with ⟨rfl, _⟩ | ⟨k, r, hb, _, _, rfl, _⟩
  · rfl
  · have hk : h ≠ k := fun ek => hn (ek ▸ hb)
    rw [Block.device_select, Block.device_setDevice_of_ne b _ hk]

section rule

variable {i : Instr} {s : State} {b : Block} {x : Response} {h : Handle}

/-- A completed rule leaves every device it does not reach. -/
theorem rule_device_of_not_reaches (e : ruleOf i s.operands s.block = .ok (b, x)) (hn : ¬ Claims.reaches i s h) :
    b.device h = s.block.device h := by
  cases i with
  | busRegister _ | pwmPin _ | pwmResetall =>
    rcases rule_device e h with hsame | ⟨r, _, hr, hr', rfl⟩
    · exact hsame
    · exact hr'.trans hr.symm
  | busBegin a w =>
    obtain ⟨hsel, hbound⟩ := not_or.mp hn
    obtain ⟨m, hm, hc⟩ := startTransaction_ok e
    have hconnect := connect_device_of_not_bound hc (release_bound hm a ▸ hbound)
    exact hconnect.trans (release_device_of_not_selected hm hsel)
  | busWrite v =>
    rcases writeByte_ok e with ⟨_, rfl, _⟩ | ⟨k, r, hs, _, rfl⟩
    · rfl
    · exact Block.device_setDevice_of_ne _ _ fun ek => hn (ek ▸ hs)
  | busRead ack =>
    rcases readByte_ok e with ⟨_, rfl, _⟩ | ⟨k, r, hs, _, rfl⟩
    · rfl
    · exact Block.device_setDevice_of_ne _ _ fun ek => hn (ek ▸ hs)
  | busEnd => exact release_device_of_not_selected (endTransaction_ok e).1 hn
  | devTryconnect _ _ | devReceive _ | devProduce _ | devDisconnect =>
    exact (answer_onDevice_setsRtc e).device_of_ne (Ne.symm hn)
  | rtcQuery | rtcSettime => exact (onDevice_setsRtc e).device_of_ne (Ne.symm hn)

/-- A completed rule makes of an RTC it reaches what `rtcAfter` says. -/
theorem rule_rtcAfter_of_reaches {r r' : RtcState} (e : ruleOf i s.operands s.block = .ok (b, x))
    (hreach : Claims.reaches i s h) (hr : s.block.hasRtc h r) (hr' : b.hasRtc h r') : rtcAfter i s.operands r r' := by
  cases i with
  | busRegister _ | pwmPin _ | pwmResetall => exact hreach.elim
  | busBegin _ _ | busEnd | devTryconnect _ _ | devDisconnect =>
    rcases rule_device e h with hsame | ⟨r₀, r₁, h₀, h₁, hafter⟩
    · cases hr'.symm.trans (hsame.trans hr)
      exact .inl rfl
    · cases h₀.symm.trans hr
      cases h₁.symm.trans hr'
      exact hafter
  | busWrite v => exact (writeByte_setsRtc hreach e).eq_rule hr hr'
  | busRead ack => exact (readByte_setsRtc hreach e).eq_rule hr hr'
  | devReceive _ | devProduce _ =>
    cases hreach
    exact (answer_onDevice_setsRtc e).eq_rule hr hr'
  | rtcQuery | rtcSettime =>
    cases hreach
    exact (onDevice_setsRtc e).eq_rule hr hr'

end rule

/-- Derivation writes offsets 0x00..0x06 alone, and none while halted (R186). -/
theorem derived_frame {r d : RtcState} {t : Millis} (hd : Claims.Derived r t d) :
    { d with regs := r.regs } = r ∧ ∀ p : Ptr, (r.halted = true ∨ 7 ≤ p.val) → d.regs[p] = r.regs[p] := by
  obtain ⟨hhalted, hrunning⟩ := hd
  rcases hh : r.halted with _ | _
  · obtain ⟨_, hhigh, hrest⟩ := hrunning hh
    exact ⟨hrest, fun p hp => hhigh p (hp.resolve_left Bool.noConfusion)⟩
  · cases hhalted hh
    exact ⟨rfl, fun _ _ => rfl⟩

/-- A received byte keeps the address and every register but the one it is stored in. -/
theorem received_frame {r r' : RtcState} {v : Byte} {t : Millis} (h : Claims.Received r v t r') :
    r'.addr = r.addr ∧ r'.ptrLoaded = true ∧
      ∀ p : Ptr, (r.ptrLoaded = false ∨ p ≠ r.ptr) → r'.regs[p] = r.regs[p] := by
  obtain ⟨hpointer, hdata⟩ := h
  rcases hp : r.ptrLoaded with _ | _
  · obtain ⟨_, hloaded, hregs, haddr, _⟩ := hpointer hp
    exact ⟨haddr, hloaded, fun p _ => by rw [hregs]⟩
  · obtain ⟨_, hloaded, haddr, _, hothers, _⟩ := hdata hp
    exact ⟨haddr, hloaded, fun p hne => hothers p (hne.resolve_left Bool.noConfusion)⟩

/-- A produced byte leaves all but the pointer as derivation does. -/
theorem produced_frame {r r' : RtcState} {ack : Bool} {t : Millis} {v : Byte}
    (h : Claims.Produced r ack t r' v) :
    { r' with regs := r.regs, ptr := r.ptr } = r ∧
      ∀ p : Ptr, (r.halted = true ∨ 7 ≤ p.val) → r'.regs[p] = r.regs[p] := by
  obtain ⟨_, hd, _, rfl, _⟩ := h
  exact derived_frame hd

/-- What `rtcAfter` says an operation makes of an RTC is within the operation's frame. -/
theorem rtcFrame_of_rtcAfter {i : Instr} {o : SideOperands Ident} {r r' : RtcState} (h : rtcAfter i o r r') :
    Claims.RtcFrame i r r' := by
  cases i with
  | busRegister _ | pwmPin _ | pwmResetall => exact h
  | busBegin _ _ | busEnd | devTryconnect _ _ | devDisconnect => rcases h with rfl | rfl <;> rfl
  | busWrite v | devReceive v =>
    cases h
    exact received_frame (received_receiveByte r v o.t)
  | busRead ack | devProduce ack =>
    cases h
    exact produced_frame (produced_produceByte r ack o.t)
  | rtcQuery =>
    cases h
    exact derived_frame (derived_derive r o.t)
  | rtcSettime =>
    cases h
    refine ⟨rfl, fun p hp => ?_⟩
    simp [RtcState.settime, getElem_writeTimeBytes, Nat.not_lt.mpr hp]

/-- The end of the setup phase changes nothing an operation's reach depends on. -/
theorem reaches_entry (i : Instr) (s : State) (h : Handle) :
    Claims.reaches i (entry i s) h ↔ Claims.reaches i s h := by
  cases i <;> exact Iff.rfl

/-- An operation leaves the Bus, the devices and the actuator records as they were, or its rule completed with the block
it leaves. -/
theorem exec_units_or_completes {i : Instr} {s t : State} (h : exec i s = .next t) :
    (t.block.bus = s.block.bus ∧ t.block.devices = s.block.devices ∧ t.block.pwm = s.block.pwm) ∨
      ∃ x, ruleOf i s.operands (entry i s).block = .ok (t.block, x) := by
  rcases exec_next h with ⟨_, rfl⟩ | ⟨_, _, rfl⟩
  · rcases finish_block (entry i s) (ruleOf i s.operands (entry i s).block) with
      ⟨b, x, hx, hb⟩ | ⟨_, _, hb⟩ | ⟨_, _, hb⟩
    · exact .inr ⟨x, by rw [hb, hx]⟩
    · exact .inl (by simp [hb])
    · exact .inl (by simp [hb])
  · exact .inl ⟨rfl, rfl, rfl⟩

/-- Settles O25: a rule that completes reaches the devices `Claims.reaches` lists, and makes of an RTC what `rtcAfter`
says; an operation that does not complete leaves the devices. -/
theorem operationsKeepWhatTheirRuleDoesNotWrite : Obligations.OperationsKeepWhatTheirRuleDoesNotWrite := by
  unfold Obligations.OperationsKeepWhatTheirRuleDoesNotWrite
  intro i s t h
  refine ⟨fun k hn => ?_, fun _ ht k r r' hreach hr hr' => ?_⟩
  · rcases exec_units_or_completes h with ⟨_, hsame, _⟩ | ⟨x, e⟩
    · simp only [Block.device, hsame]
    · rw [← entry_operands i s] at e
      exact (rule_device_of_not_reaches e (mt (reaches_entry i s k).mp hn)).trans (entry_device i s k)
  · obtain ⟨x, e, _⟩ := exec_completed h ht
    rw [← entry_operands i s] at e
    exact rtcFrame_of_rtcAfter
      (rule_rtcAfter_of_reaches e ((reaches_entry i s k).mpr hreach) ((entry_device i s k).trans hr) hr')

end Sys2Proof.Machine
end

section
/-! PROOFS (41_device_contract.md). The outcome of each operation of the direct port on an RTC (R161 to R167), which the
Bus shares (R160), and a burst of byte writes of any length on either port (R168): the steps carry the bytes to the RTC
one by one, and what they make of it is said of the RTC alone. -/

namespace Sys2Proof.Machine

variable {Ident : Type}

/-! ## The two ports -/

/-- With a device selected a byte write through the Bus is the dispatch of the device's own rule (R143). -/
theorem Block.writeByte_eq_onDevice {b : Block Ident} {h : Handle} (hs : b.bus.selected = some h) (v : Byte)
    (t : Millis) : b.writeByte v t = answer .ack (b.onDevice h (RtcState.receiveByte v t)) := by
  simp only [Block.writeByte, hs]

/-- So is a byte read (R144). -/
theorem Block.readByte_eq_onDevice {b : Block Ident} {h : Handle} (hs : b.bus.selected = some h) (ack : Bool)
    (t : Millis) : b.readByte ack t = answer .byte (b.onDevice h (RtcState.produceByte ack t)) := by
  simp only [Block.readByte, hs]

/-- Two operations that enter alike and whose rules agree there have one outcome, also where they do not complete. -/
theorem exec_congr {i j : Instr} {s : State} (he : entry i s = entry j s)
    (hr : ruleOf i s.operands (entry j s).block = ruleOf j s.operands (entry j s).block) : exec i s = exec j s := by
  rw [exec_eq, exec_eq, he, hr]

/-- Settles O16: the rule of the Bus is the one of the direct port on the selected device, refusals included. -/
theorem busAndDirectPortApplyTheSameRules : Obligations.BusAndDirectPortApplyTheSameRules := by
  unfold Obligations.BusAndDirectPortApplyTheSameRules
  intro s v ack hs
  exact ⟨exec_congr rfl (Block.writeByte_eq_onDevice (b := Claims.entered s) hs v s.operands.t),
    exec_congr rfl (Block.readByte_eq_onDevice (b := Claims.entered s) hs ack s.operands.t)⟩

/-! ## Connect and disconnect -/

theorem RtcState.tryConnect_own {r : RtcState} {a : Addr7} (ha : a = r.addr) (isWrite : Bool) :
    r.tryConnect a isWrite = ({ r with ptrLoaded := false }, true) := if_pos ha

theorem RtcState.tryConnect_other {r : RtcState} {a : Addr7} (ha : a ≠ r.addr) (isWrite : Bool) :
    r.tryConnect a isWrite = (r, false) := if_neg ha

/-- The dispatch of the direct port to an RTC, with what its rule gives. -/
theorem answer_onDevice_rtc {α : Type} {b : Block} {h : Handle} {r r' : RtcState} {x : α} {wrap : α → Response}
    {rule : RtcState → RtcState × α} (hr : b.hasRtc h r) (hrule : rule r = (r', x)) :
    answer wrap (b.onDevice h rule) = .ok (Claims.putRtc b h r', wrap x) := by
  rw [Block.onDevice_rtc rule hr, hrule]
  rfl

/-- Settles O19: the rule compares the address with the device's own, and a mismatch puts the RTC back as it is. -/
theorem tryConnectMatchesTheConfiguredAddress : Obligations.TryConnectMatchesTheConfiguredAddress := by
  unfold Obligations.TryConnectMatchesTheConfiguredAddress
  intro s a isWrite r hl hr
  have hr' : (Claims.entered s).hasRtc s.operands.h r := hr
  refine ⟨fun ha => ?_, fun ha => ?_⟩
  · exact completes_of hl rfl (answer_onDevice_rtc hr' (RtcState.tryConnect_own ha isWrite))
  · have hsame : Claims.putRtc (Claims.entered s) s.operands.h r = Claims.entered s := Block.setDevice_same hr'
    have hrule := answer_onDevice_rtc (wrap := .ack) hr' (RtcState.tryConnect_other ha isWrite)
    rw [hsame] at hrule
    exact completes_of hl rfl hrule

/-- Settles O22: the disconnect's rule writes the framing flag alone. -/
theorem disconnectResetsTheFraming : Obligations.DisconnectResetsTheFraming := by
  unfold Obligations.DisconnectResetsTheFraming
  intro s r hl hr
  exact completes_of hl rfl (answer_onDevice_rtc (b := Claims.entered s) (rule := RtcState.disconnect) hr rfl)

/-! ## One byte -/

/-- The byte write carries its byte to the device of the handle: on the direct port, or through the Bus where the device
is selected (R160). -/
def WritesTo (write : Byte → Instr) (o : SideOperands) (bus : BusState) (h : Handle) : Prop :=
  (write = .devReceive ∧ o.h = h) ∨ (write = .busWrite ∧ bus.selected = some h)

/-- On either port the RTC receives the byte and acknowledges it. -/
theorem completes_write {write : Byte → Instr} {s : State} {h : Handle} {r : RtcState} (hl : s.live)
    (hw : WritesTo write s.operands s.block.bus h) (hr : s.block.hasRtc h r) (v : Byte) :
    Completes (write v) s (Claims.putRtc (Claims.entered s) h (r.receiveByte v s.operands.t).1) (.ack true) := by
  rcases hw with ⟨rfl, rfl⟩ | ⟨rfl, hs⟩
  · exact completes_of hl rfl
      (answer_onDevice_rtc (b := Claims.entered s) hr (Prod.ext rfl (r.receiveByte_ack v s.operands.t)))
  · exact completes_of hl rfl (Block.writeByte_selected (b := Claims.entered s) hs hr v s.operands.t)

/-- Settles O20: what the received byte makes of the RTC is `Claims.Received`, as through the Bus. -/
theorem receiveTakesPointerThenData : Obligations.ReceiveTakesPointerThenData := by
  unfold Obligations.ReceiveTakesPointerThenData
  intro s v r hl hr
  exact ⟨_, received_receiveByte r v s.operands.t, completes_write hl (.inl ⟨rfl, rfl⟩) hr v⟩

/-- Settles O21: what the produced byte makes of the RTC is `Claims.Produced`, as through the Bus. -/
theorem produceDerivesThenReadsAtThePointer : Obligations.ProduceDerivesThenReadsAtThePointer := by
  unfold Obligations.ProduceDerivesThenReadsAtThePointer
  intro s ack r hl hr
  exact ⟨_, _, produced_produceByte r ack s.operands.t, completes_devProduce ack hl hr⟩

/-! ## A burst of bytes -/

/-- The RTC after it received the bytes in order, all at time t. -/
def RtcState.receiveBytes (r : RtcState) (bytes : List Byte) (t : Millis) : RtcState :=
  bytes.foldl (fun q v => (q.receiveByte v t).1) r

theorem RtcState.receiveBytes_cons (r : RtcState) (v : Byte) (bytes : List Byte) (t : Millis) :
    r.receiveBytes (v :: bytes) t = (r.receiveByte v t).1.receiveBytes bytes t := rfl

theorem RtcState.receiveBytes_concat (r : RtcState) (bytes : List Byte) (v : Byte) (t : Millis) :
    r.receiveBytes (bytes ++ [v]) t = ((r.receiveBytes bytes t).receiveByte v t).1 := by
  simp [RtcState.receiveBytes]

/-- Data bytes go to consecutive offsets from the pointer on, modulo 64, and one that fewer than 64 others follow is
still there at the end (R163, R168): the last byte is at the pointer the others left, which is no offset of theirs. -/
theorem receiveBytes_data {r : RtcState} (hp : r.ptrLoaded = true) (bytes : List Byte) (t : Millis) :
    (r.receiveBytes bytes t).ptrLoaded = true ∧
    (r.receiveBytes bytes t).ptr.val = (r.ptr.val + bytes.length) % 64 ∧
    ∀ (i : Nat) (hi : i < bytes.length), bytes.length ≤ i + 64 →
      (r.receiveBytes bytes t).regs[Fin.ofNat 64 (r.ptr.val + i)] = bytes[i] := by
  induction bytes using List.reverseRecOn with
  | nil => exact ⟨hp, (Nat.mod_eq_of_lt r.ptr.isLt).symm, fun i hi => absurd hi (Nat.not_lt_zero i)⟩
  | append_singleton bytes v ih =>
    obtain ⟨hloaded, hptr, hregs⟩ := ih
    obtain ⟨-, hdata⟩ := received_receiveByte (r.receiveBytes bytes t) v t
    obtain ⟨hptr', hloaded', -, hstored, hothers, -⟩ := hdata hloaded
    simp only [RtcState.receiveBytes_concat, List.length_append, List.length_singleton]
    refine ⟨hloaded', by omega, fun i hi hlast => ?_⟩
    rcases Nat.lt_succ_iff_lt_or_eq.mp hi with hlt | rfl
    · have hne : Fin.ofNat 64 (r.ptr.val + i) ≠ (r.receiveBytes bytes t).ptr := by
        intro e
        have hval : (r.ptr.val + i) % 64 = (r.receiveBytes bytes t).ptr.val := congrArg Fin.val e
        omega
      rw [hothers _ hne, hregs i hlt (by omega), List.getElem_append_left hlt]
    · have hat : Fin.ofNat 64 (r.ptr.val + bytes.length) = (r.receiveBytes bytes t).ptr := Fin.ext hptr.symm
      simp only [hat, hstored, List.getElem_concat_length rfl]

/-- A byte write pending first is executed by the step; the machine goes on with the selection as it was. -/
theorem step_write {write : Byte → Instr} {s : State} {o : SideOperands} {h : Handle} {r : RtcState} {v : Byte}
    {rest : List HostOp} (hl : s.live) (hw : WritesTo write o s.block.bus h) (hr : s.block.hasRtc h r)
    (hp : s.pending = ⟨encode (write v), o⟩ :: rest) :
    ∃ u : State, step s = .next u ∧ u.live ∧ u.block.bus = s.block.bus ∧
      u.block.hasRtc h (r.receiveByte v o.t).1 ∧ u.pending = rest ∧ u.responses = s.responses ++ [.ack true] := by
  have hwf : (write v).wf = true := by rcases hw with ⟨rfl, _⟩ | ⟨rfl, _⟩ <;> rfl
  have hexec := completes_write (s := s.take ⟨encode (write v), o⟩ rest) hl hw hr v
  have hstep := (step_decoded hp (encodeThenDecodeReturnsTheOperation _ hwf)).trans hexec
  exact ⟨_, hstep, hl, rfl, Block.device_setDevice_self (Claims.entered s) h _ _ hr, rfl, rfl⟩

/-- A run begins with its first step. -/
theorem run_succ {s u : State} (h : step s = .next u) (n : Nat) :
    Host.Core.run core (n + 1) s = Host.Core.run core n u := by
  have hcore : core.step s = .next u := h
  simp only [Host.Core.run, hcore]

/-- The steps of a burst carry its bytes to the RTC in order, each acknowledged. -/
theorem run_writes {write : Byte → Instr} {o : SideOperands} {h : Handle} (bytes : List Byte) :
    ∀ {s : State} {r : RtcState}, s.live → WritesTo write o s.block.bus h → s.block.hasRtc h r →
      s.pending = Claims.ops o (bytes.map write) →
      ∃ t : State, Host.Core.run core bytes.length s = .next t ∧ t.block.hasRtc h (r.receiveBytes bytes o.t) ∧
        t.responses = s.responses ++ List.replicate bytes.length (.ack true) := by
  induction bytes with
  | nil => exact fun _ _ hr _ => ⟨_, rfl, hr, (List.append_nil _).symm⟩
  | cons v bytes ih =>
    intro s r hl hw hr hp
    obtain ⟨u, hstep, hlive, hbus, hr', hpending, hack⟩ := step_write hl hw hr hp
    obtain ⟨t, hrun, ht, hresp⟩ := ih hlive (hbus ▸ hw) hr' hpending
    refine ⟨t, (run_succ hstep _).trans hrun, ht, ?_⟩
    rw [hresp, hack, List.append_assoc]
    rfl

/-- Settles O26: the burst is one run of byte writes, its first byte the pointer 62 and the others data. -/
theorem writeBurstWrapsAtTheTop : Obligations.WriteBurstWrapsAtTheTop := by
  unfold Obligations.WriteBurstWrapsAtTheTop
  intro s o h write bytes r hl hw hr hp hpending
  obtain ⟨t, hrun, ht, hresp⟩ := run_writes (62#8 :: bytes) hl hw hr hpending
  have hfirst : (r.receiveByte 62#8 o.t).1 = { r with ptr := 62, ptrLoaded := true } := by
    rw [RtcState.receiveByte_pointer hp]
    rfl
  rw [RtcState.receiveBytes_cons, hfirst] at ht
  obtain ⟨_, hptr, hregs⟩ := receiveBytes_data (r := { r with ptr := 62, ptrLoaded := true }) rfl bytes o.t
  exact ⟨t, _, hrun, ht, hptr, hregs, hresp⟩

end Sys2Proof.Machine
end

section
/-! PROOFS (42_rtc.md). A halted clock through a run of reads (R196), the query and the setter (R194, R195), the
calendar both ways (R182, R183), and the time registers of an instant read back (R185, R188, R189), from which a run
write resumes (R197). -/

namespace Sys2Proof.Machine

/-! ## A halted clock -/

/-- The clock stands still from r to r': the registers, the halt and the references are the same. -/
structure RtcState.ClockKept (r r' : RtcState) : Prop where
  regs : r'.regs = r.regs
  halted : r'.halted = r.halted
  refWall : r'.refWall = r.refWall
  refInstant : r'.refInstant = r.refInstant

theorem RtcState.ClockKept.refl (r : RtcState) : r.ClockKept r := ⟨rfl, rfl, rfl, rfl⟩

theorem RtcState.ClockKept.trans {r q p : RtcState} (hq : r.ClockKept q) (hp : q.ClockKept p) : r.ClockKept p :=
  ⟨hp.regs.trans hq.regs, hp.halted.trans hq.halted, hp.refWall.trans hq.refWall, hp.refInstant.trans hq.refInstant⟩

/-- Derivation does nothing while halted (R186, R187). -/
theorem RtcState.derive_of_halted {r : RtcState} (hh : r.halted = true) (t : Millis) : r.derive t = r := if_pos hh

/-- A byte read of a halted clock moves the pointer at most. -/
theorem RtcState.clockKept_produceByte {r : RtcState} (hh : r.halted = true) (ack : Bool) (t : Millis) :
    r.ClockKept (r.produceByte ack t).1 := by
  simp only [RtcState.produceByte, RtcState.derive_of_halted hh]
  split <;> exact ⟨rfl, rfl, rfl, rfl⟩

/-- An operation that is no byte write and no setter lets a halted clock stand still (R196). -/
theorem rtcAfter_clockKept {Ident : Type} {i : Instr} {o : SideOperands Ident} {r r' : RtcState}
    (hi : Claims.readsOnly i = true) (hh : r.halted = true) (h : rtcAfter i o r r') : r.ClockKept r' := by
  cases i with
  | busWrite _ | devReceive _ | rtcSettime => cases hi
  | busRead ack | devProduce ack =>
    cases h
    exact RtcState.clockKept_produceByte hh ack o.t
  | rtcQuery =>
    cases h
    rw [RtcState.derive_of_halted hh]
    exact .refl r
  | busRegister _ | pwmPin _ | pwmResetall =>
    cases h
    exact .refl r
  | busBegin _ _ | busEnd | devTryconnect _ _ | devDisconnect => rcases h with rfl | rfl <;> exact ⟨rfl, rfl, rfl, rfl⟩

/-- The halted RTC at the handle stands still under such an operation, whether the operation reaches it or not. -/
theorem exec_clockKept {i : Instr} {s t : State} {h : Handle} {r : RtcState} (hi : Claims.readsOnly i = true)
    (hr : s.block.hasRtc h r) (hh : r.halted = true) (e : exec i s = .next t) :
    ∃ r', t.block.hasRtc h r' ∧ r.ClockKept r' := by
  rcases exec_units_or_completes e with ⟨_, hsame, _⟩ | ⟨x, hrule⟩
  · exact ⟨r, by simpa only [Block.hasRtc, Block.device, hsame] using hr, .refl r⟩
  · rcases rule_device hrule h with hsame | ⟨q, q', hq, hq', hafter⟩
    · exact ⟨r, (hsame.trans (entry_device i s h)).trans hr, .refl r⟩
    · cases (hq.symm.trans (entry_device i s h)).trans hr
      exact ⟨q', hq', rtcAfter_clockKept hi hh hafter⟩

/-- No operation lines up another. -/
theorem exec_pending {i : Instr} {s t : State} (e : exec i s = .next t) : t.pending = s.pending := by
  rcases exec_next e with ⟨_, rfl⟩ | ⟨_, _, rfl⟩
  · rcases ruleOf i s.operands (entry i s).block with (q | c) | ⟨b, x⟩ <;> exact entry_pending i s
  · rfl

/-- A step takes the first operation off the port and leaves the others there. -/
theorem step_pending {s t : State} (e : step s = .next t) : t.pending = s.pending.tail := by
  rcases step_next e with ⟨hp, rfl⟩ | ⟨op, rest, hp, ⟨i, _, he⟩ | ⟨_, rfl | rfl⟩⟩
  · simp [hp]
  · rw [exec_pending he, hp]; rfl
  · rw [hp]; rfl
  · rw [hp]; rfl

/-- Every operation lined up that decodes is no byte write and no setter. -/
def State.OnlyReadsPending (s : State) : Prop :=
  ∀ op ∈ s.pending, ∀ i, decode op.word = .ok i → Claims.readsOnly i = true

theorem State.OnlyReadsPending.step {s t : State} (hs : s.OnlyReadsPending) (e : step s = .next t) :
    t.OnlyReadsPending := by
  intro op hop
  rw [step_pending e] at hop
  exact hs op (List.mem_of_mem_tail hop)

theorem step_clockKept {s t : State} {h : Handle} {r : RtcState} (hs : s.OnlyReadsPending) (hr : s.block.hasRtc h r)
    (hh : r.halted = true) (e : step s = .next t) : ∃ r', t.block.hasRtc h r' ∧ r.ClockKept r' := by
  rcases step_next e with ⟨_, rfl⟩ | ⟨op, rest, hp, ⟨i, hd, he⟩ | ⟨_, rfl | rfl⟩⟩
  · exact ⟨r, hr, .refl r⟩
  · exact exec_clockKept (s := s.take op rest) (hs op (by simp [hp]) i hd) hr hh he
  · exact ⟨r, hr, .refl r⟩
  · exact ⟨r, hr, .refl r⟩

/-- A run that ends in a next state has a first step, and goes on from there. -/
theorem run_succ_next {n : Nat} {s t : State} (e : Host.Core.run core (n + 1) s = .next t) :
    ∃ u, step s = .next u ∧ Host.Core.run core n u = .next t := by
  rcases hu : step s with u | f | q
  · exact ⟨u, rfl, (run_succ hu n).symm.trans e⟩
  · have hcore : core.step s = .fault f := hu
    simp only [Host.Core.run, hcore] at e
    cases e
  · have hcore : core.step s = .refused q := hu
    simp only [Host.Core.run, hcore] at e
    cases e

theorem run_clockKept (n : Nat) : ∀ {s t : State} {h : Handle} {r : RtcState}, s.OnlyReadsPending →
    s.block.hasRtc h r → r.halted = true → Host.Core.run core n s = .next t →
    ∃ r', t.block.hasRtc h r' ∧ r.ClockKept r' := by
  induction n with
  | zero =>
    intro s t h r _ hr _ e
    cases e
    exact ⟨r, hr, .refl r⟩
  | succ n ih =>
    intro s t h r hs hr hh e
    obtain ⟨u, hstep, hrun⟩ := run_succ_next e
    obtain ⟨q, hq, hkept⟩ := step_clockKept hs hr hh hstep
    obtain ⟨r', hr', hkept'⟩ := ih (hs.step hstep) hq (hkept.halted.trans hh) hrun
    exact ⟨r', hr', hkept.trans hkept'⟩

/-- Settles O35, by induction on the number of steps: each step lets the halted clock stand still. -/
theorem haltFreezesTheRegisters : Obligations.HaltFreezesTheRegisters := by
  unfold Obligations.HaltFreezesTheRegisters
  intro n s t h r hr hh hs e
  obtain ⟨r', hr', hregs, hhalted, hwall, hinstant⟩ := run_clockKept n hs hr hh e
  exact ⟨r', hr', hregs, hhalted.trans hh, hwall, hinstant⟩

/-! ## The query and the setter -/

/-- The dispatch of the query or the setter to an RTC, with what its rule gives. -/
theorem onDevice_putRtc {α : Type} {b : Block} {h : Handle} {r r' : RtcState} {x : α} {rule : RtcState → RtcState × α}
    (hr : b.hasRtc h r) (hrule : rule r = (r', x)) : b.onDevice h rule = .ok (Claims.putRtc b h r', x) := by
  rw [Block.onDevice_rtc rule hr, hrule]
  rfl

/-- Settles O28: the query's rule derives, and its response decodes the derived registers. -/
theorem queryDerivesAndDecodes : Obligations.QueryDerivesAndDecodes := by
  unfold Obligations.QueryDerivesAndDecodes
  intro s r hl hr
  exact ⟨r.derive s.operands.t, derived_derive r s.operands.t,
    completes_of hl rfl (onDevice_putRtc (b := Claims.entered s) (rule := RtcState.query s.operands.t) hr rfl)⟩

/-- The seven time registers after they are written from an instant (R185). -/
theorem materialize_getElem (r : RtcState) (inst : Millis) (p : Fin 7) :
    (r.materialize inst).regs[p] = (timeBytes r.halted r.mode12 inst)[p] := by
  simp only [Fin.getElem_fin, RtcState.materialize_regs, getElem_writeTimeBytes, p.isLt, dif_pos]

/-- "Offsets 0x07..0x3F are not written" (R185). -/
theorem materialize_getElem_of_le (r : RtcState) (inst : Millis) {p : Ptr} (hp : 7 ≤ p.val) :
    (r.materialize inst).regs[p] = r.regs[p] := by
  simp only [Fin.getElem_fin, RtcState.materialize_regs, getElem_writeTimeBytes, dif_neg (Nat.not_lt.mpr hp)]

/-- Settles O29: the setter's rule sets the references and materializes the wall instant, which writes offsets
0x00..0x06 alone. -/
theorem setterForcesTheTimeOrigin : Obligations.SetterForcesTheTimeOrigin := by
  unfold Obligations.SetterForcesTheTimeOrigin
  intro s r hl hr
  refine ⟨(r.settime s.operands.t s.operands.w).1,
    completes_of hl rfl
      (onDevice_putRtc (b := Claims.entered s) (rule := RtcState.settime s.operands.t s.operands.w) hr rfl),
    rfl, materialize_getElem _ _, fun p hp => materialize_getElem_of_le _ _ hp⟩

/-! ## The calendar -/

/-- The day on which the year y begins that is counted from March, from 0000-03-01 on: every fourth year is longer by a
day, but for those of the centuries that 400 does not divide. -/
def marchYearStart (y : Int) : Int := 365 * y + y / 4 - y / 100 + y / 400

/-- The year of a day of an era of 400 years, both counted from 0, as R182 finds it. -/
def yearOfEra (doe : Int) : Int := (doe - doe / 1460 + doe / 36524 - doe / 146096) / 365

/-- The March-based year of a day number (R182). -/
def marchYear (z : Int) : Int := yearOfEra ((z + 719468) % 146097) + (z + 719468) / 146097 * 400

/-- The date of a day of a March-based year, the day counted from 0 (R182). -/
def dateInMarchYear (y doy : Int) : Civil :=
  let mp := (5 * doy + 2) / 153
  let m := if mp < 10 then mp + 3 else mp - 9
  ⟨if m ≤ 2 then y + 1 else y, m, doy - (153 * mp + 2) / 5 + 1⟩

theorem marchYearStart_strictMono : StrictMono marchYearStart := by
  intro y y' h
  unfold marchYearStart
  omega

theorem marchYearStart_add_era (y era : Int) :
    marchYearStart (y + era * 400) = marchYearStart y + era * 146097 := by
  unfold marchYearStart
  omega

theorem marchYearStart_succ (y : Int) :
    marchYearStart y + 365 ≤ marchYearStart (y + 1) ∧ marchYearStart (y + 1) ≤ marchYearStart y + 366 := by
  unfold marchYearStart
  omega

theorem yearOfEra_range {doe : Int} (h0 : 0 ≤ doe) (h1 : doe < 146097) : 0 ≤ yearOfEra doe ∧ yearOfEra doe < 400 := by
  unfold yearOfEra
  omega

/-- A day of an era is in the year found for it. The formula takes the leap days off by the days past, `doe / 1460` for
every fourth year and `doe / 36524` for the centuries; the cases are whether these counts are those of the year
found. -/
theorem yearOfEra_bounds {doe : Int} (h0 : 0 ≤ doe) (h1 : doe < 146097) :
    marchYearStart (yearOfEra doe) ≤ doe ∧ doe < marchYearStart (yearOfEra doe + 1) := by
  obtain ⟨hlo, hhi⟩ := yearOfEra_range h0 h1
  have hy : yearOfEra doe = (doe - doe / 1460 + doe / 36524 - doe / 146096) / 365 := rfl
  generalize yearOfEra doe = y at *
  unfold marchYearStart
  constructor
  · have hera : y / 400 = 0 := by omega
    rcases lt_or_ge (doe / 1460) (y / 4) with h | h <;> omega
  · by_contra hn
    have hcenturies : 25 * ((y + 1) / 100) ≤ (y + 1) / 4 := by omega
    rcases lt_or_ge ((y + 1) / 4) (doe / 1460) with h | h
    · omega
    · rcases lt_or_ge (doe / 36524) ((y + 1) / 100) with h | h <;> omega

/-- A day is in its March-based year. -/
theorem marchYear_bounds (z : Int) :
    marchYearStart (marchYear z) ≤ z + 719468 ∧ z + 719468 < marchYearStart (marchYear z + 1) := by
  obtain ⟨hlo, hhi⟩ := yearOfEra_bounds (doe := (z + 719468) % 146097) (by omega) (by omega)
  unfold marchYear
  rw [add_right_comm, marchYearStart_add_era, marchYearStart_add_era]
  omega

/-- And in no other. -/
theorem marchYear_eq {z y : Int} (hlo : marchYearStart y ≤ z + 719468) (hhi : z + 719468 < marchYearStart (y + 1)) :
    marchYear z = y := by
  obtain ⟨hlo', hhi'⟩ := marchYear_bounds z
  have h1 := marchYearStart_strictMono.lt_iff_lt.mp (hlo.trans_lt hhi')
  have h2 := marchYearStart_strictMono.lt_iff_lt.mp (hlo'.trans_lt hhi)
  omega

/-- R182 by the March-based year and the day in it. -/
theorem civilFromDays_eq (z : Int) :
    civilFromDays z = dateInMarchYear (marchYear z) (z + 719468 - marchYearStart (marchYear z)) := by
  have hdoe : z + 719468 - (z + 719468) / 146097 * 146097 = (z + 719468) % 146097 := by omega
  have hdoy : z + 719468 - marchYearStart (marchYear z) = (z + 719468) % 146097 -
      (365 * yearOfEra ((z + 719468) % 146097) + yearOfEra ((z + 719468) % 146097) / 4 -
        yearOfEra ((z + 719468) % 146097) / 100) := by
    obtain ⟨hlo, hhi⟩ := yearOfEra_range (doe := (z + 719468) % 146097) (by omega) (by omega)
    rw [marchYear, marchYearStart_add_era, marchYearStart]
    omega
  rw [hdoy, civilFromDays, hdoe]
  rfl

theorem daysFromCivil_of_two_lt {m : Int} (hm : 2 < m) (y d : Int) :
    daysFromCivil y m d = marchYearStart y + (153 * (m - 3) + 2) / 5 + d - 719469 := by
  simp only [daysFromCivil, if_neg (not_le.mpr hm), if_pos hm, marchYearStart]
  omega

theorem daysFromCivil_of_le_two {m : Int} (hm : m ≤ 2) (y d : Int) :
    daysFromCivil y m d = marchYearStart (y - 1) + (153 * (m + 9) + 2) / 5 + d - 719469 := by
  simp only [daysFromCivil, if_pos hm, if_neg (not_lt.mpr hm), marchYearStart]
  omega

/-- March to December. -/
theorem dateInMarchYear_of_lt {y doy : Int} (h0 : 0 ≤ doy) (h : (5 * doy + 2) / 153 < 10) :
    dateInMarchYear y doy =
      ⟨y, (5 * doy + 2) / 153 + 3, doy - (153 * ((5 * doy + 2) / 153) + 2) / 5 + 1⟩ := by
  have hm : ¬ (5 * doy + 2) / 153 + 3 ≤ 2 := by omega
  simp only [dateInMarchYear, if_pos h, if_neg hm]

/-- January and February. -/
theorem dateInMarchYear_of_ge {y doy : Int} (h1 : doy < 366) (h : 10 ≤ (5 * doy + 2) / 153) :
    dateInMarchYear y doy =
      ⟨y + 1, (5 * doy + 2) / 153 - 9, doy - (153 * ((5 * doy + 2) / 153) + 2) / 5 + 1⟩ := by
  have hm : (5 * doy + 2) / 153 - 9 ≤ 2 := by omega
  simp only [dateInMarchYear, if_neg (not_lt.mpr h), if_pos hm]

/-- The date of a day of a March-based year is a date, and that day's. -/
theorem dateInMarchYear_spec {y doy : Int} (h0 : 0 ≤ doy) (h1 : doy < 366) :
    daysFromCivil (dateInMarchYear y doy).year (dateInMarchYear y doy).month (dateInMarchYear y doy).day =
        marchYearStart y + doy - 719468 ∧
      1 ≤ (dateInMarchYear y doy).month ∧ (dateInMarchYear y doy).month ≤ 12 ∧
      1 ≤ (dateInMarchYear y doy).day ∧ (dateInMarchYear y doy).day ≤ 31 := by
  rcases lt_or_ge ((5 * doy + 2) / 153) 10 with h | h
  · rw [dateInMarchYear_of_lt h0 h]
    dsimp only
    rw [daysFromCivil_of_two_lt (by omega)]
    omega
  · rw [dateInMarchYear_of_ge h1 h]
    dsimp only
    rw [daysFromCivil_of_le_two (by omega), Int.add_sub_cancel]
    omega

/-- Settles O31: the date is that of a day of a March-based year, whose day number is the year's start and that day. -/
theorem daysAndDatesRoundTrip : Obligations.DaysAndDatesRoundTrip := by
  unfold Obligations.DaysAndDatesRoundTrip
  intro z
  obtain ⟨hlo, hhi⟩ := marchYear_bounds z
  have hlen := marchYearStart_succ (marchYear z)
  rw [civilFromDays_eq]
  obtain ⟨hdays, hdate⟩ := dateInMarchYear_spec (y := marchYear z) (doy := z + 719468 - marchYearStart (marchYear z))
    (by omega) (by omega)
  exact ⟨by omega, hdate⟩

/-- The month of a day of a March-based year, counted from March on: the day d of the month mp, the days of the months
before added (R182, R183). -/
theorem monthInMarchYear_eq {mp d : Int} (hd : 1 ≤ d) (hmonth : (153 * mp + 2) / 5 + d ≤ (153 * (mp + 1) + 2) / 5) :
    (5 * ((153 * mp + 2) / 5 + d - 1) + 2) / 153 = mp := by
  omega

/-- The date of a day number given by the March-based year, the month in it and the day. -/
theorem civilFromDays_inMarchYear {y mp d : Int} (h0 : 0 ≤ mp) (hd : 1 ≤ d)
    (hyear : (153 * mp + 2) / 5 + d ≤ marchYearStart (y + 1) - marchYearStart y) :
    civilFromDays (marchYearStart y + (153 * mp + 2) / 5 + d - 719469) =
      dateInMarchYear y ((153 * mp + 2) / 5 + d - 1) := by
  have hy : marchYear (marchYearStart y + (153 * mp + 2) / 5 + d - 719469) = y :=
    marchYear_eq (by omega) (by omega)
  rw [civilFromDays_eq, hy]
  congr 1
  omega

/-- A day up to the last of its month, the day before the first of the next: a month from March on ends where the next
begins, January has 31 days, and February ends with the March-based year. -/
theorem le_monthLength {y m d : Int} (h1 : 1 ≤ m) (h12 : m ≤ 12)
    (hlast : d ≤ daysFromCivil (if m = 12 then y + 1 else y) (if m = 12 then 1 else m + 1) 1 - daysFromCivil y m 1) :
    (2 < m → (153 * (m - 3) + 2) / 5 + d ≤ (153 * (m - 3 + 1) + 2) / 5) ∧
    (m = 1 → d ≤ 31) ∧ (m = 2 → 337 + d ≤ marchYearStart y - marchYearStart (y - 1)) := by
  refine ⟨fun hm => ?_, ?_, ?_⟩
  · rcases eq_or_ne m 12 with rfl | hne
    · rw [if_pos rfl, if_pos rfl, daysFromCivil_of_two_lt hm, daysFromCivil_of_le_two one_le_two,
        Int.add_sub_cancel] at hlast
      omega
    · rw [if_neg hne, if_neg hne, daysFromCivil_of_two_lt hm, daysFromCivil_of_two_lt (by omega)] at hlast
      omega
  · rintro rfl
    rw [if_neg (by decide), if_neg (by decide), daysFromCivil_of_le_two (by decide),
      daysFromCivil_of_le_two (by decide)] at hlast
    omega
  · rintro rfl
    rw [if_neg (by decide), if_neg (by decide), daysFromCivil_of_two_lt (by decide),
      daysFromCivil_of_le_two (by decide)] at hlast
    omega

/-- A date whose day is one of its month is given back by its day number (R182, R183). -/
theorem civilFromDays_daysFromCivil {y m d : Int} (h1 : 1 ≤ m) (h12 : m ≤ 12) (hd : 1 ≤ d)
    (hlast : d ≤ daysFromCivil (if m = 12 then y + 1 else y) (if m = 12 then 1 else m + 1) 1 - daysFromCivil y m 1) :
    civilFromDays (daysFromCivil y m d) = ⟨y, m, d⟩ := by
  obtain ⟨hother, hjanuary, hfebruary⟩ := le_monthLength h1 h12 hlast
  rcases lt_or_ge 2 m with hm | hm
  · have hlen := marchYearStart_succ y
    have hmp := monthInMarchYear_eq hd (hother hm)
    rw [daysFromCivil_of_two_lt hm, civilFromDays_inMarchYear (by omega) hd (by omega),
      dateInMarchYear_of_lt (by omega) (by omega), hmp, Civil.mk.injEq]
    omega
  · have hlen := marchYearStart_succ (y - 1)
    rw [Int.sub_add_cancel] at hlen
    have hmp : (5 * ((153 * (m + 9) + 2) / 5 + d - 1) + 2) / 153 = m + 9 := monthInMarchYear_eq hd (by omega)
    rw [daysFromCivil_of_le_two hm, civilFromDays_inMarchYear (by omega) hd (by rw [Int.sub_add_cancel]; omega),
      dateInMarchYear_of_ge (by omega) (by omega), hmp, Civil.mk.injEq]
    omega

/-! ## The fields of an instant -/

/-- The bytes that hold the fields in the seven time registers, in the order of their offsets (R108 to R118). -/
def DateFields.bytes (f : DateFields) (mode12 : Bool) : Vector Byte 7 :=
  #v[encSecond f.halted f.second, dec2bcd f.minute, encHour f.hour mode12, BitVec.ofNat 8 f.weekday, dec2bcd f.date,
    dec2bcd f.month, dec2bcd (f.year % 100)]

/-- The fields are ones the time registers can hold, the year in the century (R118, R200). -/
structure DateFields.Fits (f : DateFields) : Prop where
  second : f.second < 60
  minute : f.minute < 60
  hour : f.hour < 24
  weekday : f.weekday < 256
  date : f.date < 32
  month : f.month < 13
  year : 2000 ≤ f.year ∧ f.year < 2100

/-- Registers that hold fields decode to them (R189). -/
theorem decodeFields_of_bytes {r : RtcState} {f : DateFields} (hf : f.Fits) (hh : r.halted = f.halted)
    (hb : ∀ p : Fin 7, r.regs[p] = (f.bytes r.mode12)[p]) : r.decodeFields = f := by
  have hyear : centuryBase + f.year % 100 = f.year := by
    have := hf.year
    unfold centuryBase
    omega
  have h0 : r.read regSeconds = encSecond f.halted f.second := hb 0
  have h1 : r.read regMinutes = dec2bcd f.minute := hb 1
  have h2 : r.read regHours = encHour f.hour r.mode12 := hb 2
  have h3 : r.read regWeekday = BitVec.ofNat 8 f.weekday := hb 3
  have h4 : r.read regDate = dec2bcd f.date := hb 4
  have h5 : r.read regMonth = dec2bcd f.month := hb 5
  have h6 : r.read regYear = dec2bcd (f.year % 100) := hb 6
  simp only [RtcState.decodeFields, h0, h1, h2, h3, h4, h5, h6, hh, decSecond_encSecond _ hf.second,
    decMinute_dec2bcd hf.minute, decHour_encHour _ hf.hour, decDate_dec2bcd hf.date, decMonth_dec2bcd hf.month, decYear,
    bcd2dec_dec2bcd (Nat.mod_lt f.year (by decide : 0 < 100)), hyear, BitVec.toNat_ofNat, Nat.mod_eq_of_lt hf.weekday]

/-- The fields of a wall instant's whole second, the year modulo the century (R185, R200). -/
def fieldsAt (halted : Bool) (inst : Millis) : DateFields where
  second := secondOfDay inst % 60
  minute := secondOfDay inst % 3600 / 60
  hour := secondOfDay inst / 3600
  weekday := (weekday (dayOf inst)).toNat
  date := (civilFromDays (dayOf inst)).day.toNat
  month := (civilFromDays (dayOf inst)).month.toNat
  year := centuryBase + ((civilFromDays (dayOf inst)).year % 100).toNat
  halted := halted

theorem weekday_range (z : Int) : 1 ≤ weekday z ∧ weekday z ≤ 7 := by
  unfold weekday
  omega

/-- The bytes materialized from an instant hold its fields. -/
theorem timeBytes_eq (halted mode12 : Bool) (inst : Millis) :
    timeBytes halted mode12 inst = (fieldsAt halted inst).bytes mode12 := by
  obtain ⟨hlo, hhi⟩ := weekday_range (dayOf inst)
  have hweekday : BitVec.ofInt 8 (weekday (dayOf inst)) = BitVec.ofNat 8 (weekday (dayOf inst)).toNat := by
    rw [← BitVec.ofInt_natCast, Int.toNat_of_nonneg (by omega)]
  have hyear : (centuryBase + ((civilFromDays (dayOf inst)).year % 100).toNat) % 100 =
      ((civilFromDays (dayOf inst)).year % 100).toNat := by
    unfold centuryBase
    omega
  simp only [timeBytes, DateFields.bytes, fieldsAt, hweekday, hyear]

theorem fieldsAt_fits (halted : Bool) (inst : Millis) : (fieldsAt halted inst).Fits := by
  obtain ⟨-, hm1, hm12, hd1, hd31⟩ := daysAndDatesRoundTrip (dayOf inst)
  obtain ⟨hw1, hw7⟩ := weekday_range (dayOf inst)
  exact {
    second := secondOfDay_mod_60_lt inst
    minute := Nat.div_lt_of_lt_mul (Nat.mod_lt _ (by decide))
    hour := hourOfDay_lt inst
    weekday := by simp only [fieldsAt]; omega
    date := by simp only [fieldsAt]; omega
    month := by simp only [fieldsAt]; omega
    year := by simp only [fieldsAt, centuryBase]; omega }

theorem decodeFields_materialize (r : RtcState) (inst : Millis) :
    (r.materialize inst).decodeFields = fieldsAt r.halted inst :=
  decodeFields_of_bytes (fieldsAt_fits r.halted inst) rfl fun p => by
    rw [materialize_getElem, timeBytes_eq, RtcState.materialize_mode12]

/-- Settles O30: the registers hold the fields of the instant, and decode to them. -/
theorem decodedFieldsAreThoseOfTheInstant : Obligations.DecodedFieldsAreThoseOfTheInstant := by
  unfold Obligations.DecodedFieldsAreThoseOfTheInstant
  intro r inst S c f
  have hf : f = fieldsAt r.halted inst := decodeFields_materialize r inst
  have hsod : (secondOfDay inst : Int) = S % 86400 := Int.toNat_of_nonneg (by omega)
  obtain ⟨-, hm1, hm12, hd1, hd31⟩ := daysAndDatesRoundTrip (S / 86400)
  obtain ⟨hw1, hw7⟩ := weekday_range (S / 86400)
  rw [hf]
  have hyear : (((c.year % 100).toNat : Nat) : Int) = c.year % 100 := Int.toNat_of_nonneg (by omega)
  refine ⟨?_, ?_, ?_, Int.toNat_of_nonneg (Int.le_of_lt hw1), Int.toNat_of_nonneg (Int.le_of_lt hd1),
    Int.toNat_of_nonneg (Int.le_of_lt hm1), (Int.natCast_add _ _).trans (congrArg _ hyear), rfl⟩
  all_goals
    simp only [fieldsAt]
    omega

/-! ## The instant of fields -/

/-- The day number is linear in the day (R183). -/
theorem daysFromCivil_first_add (y m d : Int) : daysFromCivil y m 1 + (d - 1) = daysFromCivil y m d := by
  simp only [daysFromCivil]
  omega

/-- The wall instant of a date and a time of its day (R181, R183). -/
def instantOf (y mo d h mi s : Nat) : Millis :=
  (((daysFromCivil y mo d * 86400 + h * 3600 + mi * 60 + s) * 1000 : Int) : Rat)

/-- Fields with a month of 1..12 carry nothing into the year (R188). -/
theorem DateFields.instant_eq {f : DateFields} (h1 : 1 ≤ f.month) (h12 : f.month ≤ 12) :
    f.instant = instantOf f.year f.month f.date f.hour f.minute f.second := by
  have hcarry : ((f.month : Int) - 1) / 12 = 0 := by omega
  have hmonth : ((f.month : Int) - 1) % 12 + 1 = f.month := by omega
  simp only [DateFields.instant, instantOf, hcarry, hmonth, Int.add_zero, daysFromCivil_first_add]

/-- The years of the century are those of its days (R118, R200). -/
theorem civilFromDays_year_range {z : Int} (hlo : 10957 ≤ z) (hhi : z < 47482) :
    2000 ≤ (civilFromDays z).year ∧ (civilFromDays z).year < 2100 := by
  obtain ⟨hdays, hm1, hm12, hd1, hd31⟩ := daysAndDatesRoundTrip z
  have hstarts : marchYearStart 1998 = 729754 ∧ marchYearStart 1999 = 730119 ∧ marchYearStart 2099 = 766644 ∧
      marchYearStart 2100 = 767009 := by decide
  rcases lt_or_ge 2 (civilFromDays z).month with hm | hm
  · rw [daysFromCivil_of_two_lt hm] at hdays
    have hfirst := marchYearStart_strictMono.lt_iff_lt (a := 1999) (b := (civilFromDays z).year)
    have hlast := marchYearStart_strictMono.lt_iff_lt (a := (civilFromDays z).year) (b := 2100)
    omega
  · rw [daysFromCivil_of_le_two hm] at hdays
    have hfirst := marchYearStart_strictMono.lt_iff_lt (a := 1998) (b := (civilFromDays z).year - 1)
    have hlast := marchYearStart_strictMono.lt_iff_lt (a := (civilFromDays z).year - 1) (b := 2099)
    omega

theorem wholeSeconds_instantOf (y mo d h mi s : Nat) :
    wholeSeconds (instantOf y mo d h mi s) = daysFromCivil y mo d * 86400 + h * 3600 + mi * 60 + s := by
  have hq : instantOf y mo d h mi s / 1000 =
      ((daysFromCivil y mo d * 86400 + h * 3600 + mi * 60 + s : Int) : Rat) := by
    rw [instantOf, Int.cast_mul]
    exact mul_div_cancel_right₀ _ (by norm_num)
  rw [wholeSeconds, hq, Rat.floor_intCast]

/-- The century as whole seconds of the wall scale (R181, R200). -/
theorem wholeSeconds_range {inst : Millis} (hlo : 946684800000 ≤ inst) (hhi : inst < 4102444800000) :
    946684800 ≤ wholeSeconds inst ∧ wholeSeconds inst < 4102444800 := by
  refine ⟨Rat.le_floor_iff.mpr ?_, Rat.floor_lt_iff.mpr ?_⟩
  · push_cast
    linarith
  · push_cast
    linarith

/-- Within the century the fields of an instant have its whole second as their instant (R188). -/
theorem instant_fieldsAt (halted : Bool) {inst : Millis} (hlo : 946684800000 ≤ inst) (hhi : inst < 4102444800000) :
    (fieldsAt halted inst).instant = (wholeSeconds inst : Rat) * 1000 := by
  obtain ⟨hslo, hshi⟩ := wholeSeconds_range hlo hhi
  have hday : dayOf inst = wholeSeconds inst / 86400 := rfl
  have hsod : (secondOfDay inst : Int) = wholeSeconds inst % 86400 := Int.toNat_of_nonneg (by omega)
  obtain ⟨hylo, hyhi⟩ := civilFromDays_year_range (z := dayOf inst) (by omega) (by omega)
  obtain ⟨hdays, hm1, hm12, hd1, hd31⟩ := daysAndDatesRoundTrip (dayOf inst)
  have hyear : ((fieldsAt halted inst).year : Int) = (civilFromDays (dayOf inst)).year := by
    simp only [fieldsAt, centuryBase]
    omega
  have hmonth : ((fieldsAt halted inst).month : Int) = (civilFromDays (dayOf inst)).month :=
    Int.toNat_of_nonneg (Int.le_of_lt hm1)
  have hdate : ((fieldsAt halted inst).date : Int) = (civilFromDays (dayOf inst)).day :=
    Int.toNat_of_nonneg (Int.le_of_lt hd1)
  have htime : ((fieldsAt halted inst).hour : Int) * 3600 + (fieldsAt halted inst).minute * 60 +
      (fieldsAt halted inst).second = wholeSeconds inst % 86400 := by
    simp only [fieldsAt]
    omega
  rw [DateFields.instant_eq (by omega) (by omega), instantOf, hyear, hmonth, hdate, hdays]
  norm_cast
  omega

/-- Settles O32: the registers decode to the fields of the instant, whose instant is its whole second. -/
theorem registersReadBackTheirInstant : Obligations.RegistersReadBackTheirInstant := by
  unfold Obligations.RegistersReadBackTheirInstant
  intro r inst hlo hhi
  rw [RtcState.instantOfRegs, decodeFields_materialize]
  exact instant_fieldsAt r.halted hlo hhi

/-! ## The run write -/

section holds

variable {r : RtcState} {y mo d h mi s : Nat}

/-- The fields of registers that hold a date and a time, the weekday register whatever it is. -/
def heldFields (r : RtcState) (y mo d h mi s : Nat) : DateFields :=
  ⟨s, mi, h, (r.read regWeekday).toNat, d, mo, y, r.halted⟩

theorem civilFromDays_of_holdsFields (hold : Claims.HoldsFields r y mo d h mi s) :
    civilFromDays (daysFromCivil y mo d) = ⟨y, mo, d⟩ := by
  obtain ⟨-, -, -, hd, h1, h12, -, -, hlast, -⟩ := hold
  have hdec : mo = 12 ↔ (mo : Int) = 12 := by omega
  simp only [hdec] at hlast
  exact civilFromDays_daysFromCivil (by omega) (by omega) (by omega) hlast

theorem heldFields_fits (hold : Claims.HoldsFields r y mo d h mi s) : (heldFields r y mo d h mi s).Fits := by
  obtain ⟨-, -, -, -, hd31⟩ := daysAndDatesRoundTrip (daysFromCivil y mo d)
  rw [civilFromDays_of_holdsFields hold] at hd31
  dsimp only at hd31
  obtain ⟨hs, hmi, hh, -, -, h12, hylo, hyhi, -⟩ := hold
  exact ⟨hs, hmi, hh, (r.read regWeekday).isLt, by simp only [heldFields]; omega, Nat.lt_succ_of_le h12, hylo, hyhi⟩

theorem regs_of_holdsFields (hold : Claims.HoldsFields r y mo d h mi s) (p : Fin 7) :
    r.regs[p] = ((heldFields r y mo d h mi s).bytes r.mode12)[p] := by
  obtain ⟨-, -, -, -, -, -, -, -, -, h0, h1, h2, h4, h5, h6⟩ := hold
  have h3 : r.regs[3] = BitVec.ofNat 8 (r.read regWeekday).toNat :=
    ((BitVec.ofNat_toNat 8 _).trans (BitVec.setWidth_eq _)).symm
  fin_cases p
  exacts [h0, h1, h2, h3, h4, h5, h6]

/-- Their instant (R188). -/
theorem instantOfRegs_of_holdsFields (hold : Claims.HoldsFields r y mo d h mi s) :
    r.instantOfRegs = instantOf y mo d h mi s := by
  have hfields : r.decodeFields = heldFields r y mo d h mi s :=
    decodeFields_of_bytes (heldFields_fits hold) rfl (regs_of_holdsFields hold)
  obtain ⟨-, -, -, -, h1, h12, -⟩ := hold
  rw [RtcState.instantOfRegs, hfields]
  exact DateFields.instant_eq h1 h12

/-- The fields of that instant are those held, but for the weekday, which is the date's (R184, R197). -/
theorem fieldsAt_of_holdsFields (hold : Claims.HoldsFields r y mo d h mi s) :
    fieldsAt r.halted (instantOf y mo d h mi s) =
      { heldFields r y mo d h mi s with weekday := (weekday (daysFromCivil y mo d)).toNat } := by
  have hcivil := civilFromDays_of_holdsFields hold
  obtain ⟨hs, hmi, hh, -, -, -, hylo, hyhi, -⟩ := hold
  have hday : dayOf (instantOf y mo d h mi s) = daysFromCivil y mo d := by
    rw [dayOf, wholeSeconds_instantOf]
    omega
  have hsod : secondOfDay (instantOf y mo d h mi s) = h * 3600 + mi * 60 + s := by
    rw [secondOfDay, wholeSeconds_instantOf]
    omega
  simp only [fieldsAt, heldFields, hday, hsod, hcivil, DateFields.mk.injEq, centuryBase, true_and, and_true]
  omega

end holds

/-- The weekday stands in offset 0x03 alone. -/
theorem bytes_with_weekday (f : DateFields) (w : Nat) (mode12 : Bool) {p : Fin 7} (hp : p ≠ 3) :
    (({ f with weekday := w } : DateFields).bytes mode12)[p] = (f.bytes mode12)[p] := by
  fin_cases p
  · rfl
  · rfl
  · rfl
  · exact absurd rfl hp
  · rfl
  · rfl
  · rfl

/-- A run write is the restart of the clock from the registers it leaves (R191). -/
theorem received_runWrite {r r' : RtcState} {v : Byte} {t : Millis} (hloaded : r.ptrLoaded = true)
    (hptr : r.ptr = 0x00) (hv : v.getLsbD 7 = false) (h : Claims.Received r v t r') :
    r'.halted = false ∧ r'.refWall = r'.instantOfRegs ∧ r'.refInstant = t := by
  obtain ⟨-, hdata⟩ := h
  obtain ⟨-, -, -, -, -, -, hrun, -⟩ := hdata hloaded
  obtain ⟨hhalted, -, hwall, hinstant⟩ := hrun (congrArg Fin.val hptr) hv
  exact ⟨hhalted, hwall, hinstant⟩

/-- Settles O33: the run write restarts the clock from the instant of the registers, whose fields at that instant are
those held, but for the weekday. -/
theorem runWriteResumesWithZeroJump : Obligations.RunWriteResumesWithZeroJump := by
  unfold Obligations.RunWriteResumesWithZeroJump
  intro r r' v t1 y mo d h mi s hloaded hptr hv hrec hold
  obtain ⟨hhalted, hwall, hinstant⟩ := received_runWrite hloaded hptr hv hrec
  have hderive : ∀ t, (r'.derive t).regs = writeTimeBytes r'.regs (timeBytes false r'.mode12
      (instantOf y mo d h mi s + (t - t1))) := by
    intro t
    rw [RtcState.derive, if_neg (by simp [hhalted]), RtcState.materialize_regs, RtcState.instantAt, hwall, hinstant,
      instantOfRegs_of_holdsFields hold, hhalted]
  refine ⟨hderive, fun p hp => ?_⟩
  rw [hderive, sub_self, add_zero, ← hhalted, timeBytes_eq, fieldsAt_of_holdsFields hold, Fin.getElem_fin,
    getElem_writeTimeBytes]
  split
  case isTrue h7 =>
    have hp3 : (⟨p.val, h7⟩ : Fin 7) ≠ 3 := fun e => hp (Fin.ext (congrArg Fin.val e :))
    exact (bytes_with_weekday _ _ _ hp3).trans (regs_of_holdsFields hold ⟨p.val, h7⟩).symm
  case isFalse => rfl

end Sys2Proof.Machine
end

section
/-! PROOFS (43_pwm.md). What a pin report makes of an actuator's record (R224), what a pulse's width makes of the angle
(R222, R223, R228), and what each operation can do to the records (R221, R225, R226). Neither the PWM decoder nor the
other units see what the other's operations write (R220). -/

namespace Sys2Proof.Machine

/-! ## A pin report against a record -/

section report

variable {r : PwmRec} {now s0 : Micros}

theorem validWidth_eq_true_iff {width : Micros} : validWidth width = true ↔ 500 ≤ width ∧ width ≤ 2500 :=
  decide_eq_true_iff

theorem validWidth_eq_false_iff {width : Micros} : validWidth width = false ↔ width < 500 ∨ 2500 < width := by
  rw [← Bool.not_eq_true, validWidth_eq_true_iff, not_and_or, not_le, not_le]

theorem PwmRec.angleAtFall_of_start (hs : r.start = some s0) :
    r.angleAtFall now = if validWidth (now - s0) then pwmAngle (now - s0) else r.angle := by
  simp only [PwmRec.angleAtFall, hs]

theorem PwmRec.report_rising (hr : r.lastLevel = false) : r.report true now = ⟨true, some now, r.angle⟩ := by
  simp only [PwmRec.report, hr]

theorem PwmRec.report_falling (hr : r.lastLevel = true) :
    r.report false now = ⟨false, r.start, r.angleAtFall now⟩ := by
  simp only [PwmRec.report, hr]

theorem PwmRec.report_noEdge {level : Bool} (hr : level = r.lastLevel) : r.report level now = r := by
  subst hr
  rcases hl : r.lastLevel with _ | _ <;> simp only [PwmRec.report, hl]

/-- The fall of a valid width sets the angle (R222, R223). -/
theorem PwmRec.report_falling_valid (hr : r.lastLevel = true) (hs : r.start = some s0)
    (hw : validWidth (now - s0) = true) : r.report false now = ⟨false, some s0, pwmAngle (now - s0)⟩ := by
  rw [PwmRec.report_falling hr, PwmRec.angleAtFall_of_start hs, if_pos hw, hs]

/-- The fall of a width outside the window keeps the angle (R223). -/
theorem PwmRec.report_falling_ignored (hr : r.lastLevel = true) (hs : r.start = some s0)
    (hw : validWidth (now - s0) = false) : r.report false now = ⟨false, some s0, r.angle⟩ := by
  rw [PwmRec.report_falling hr, PwmRec.angleAtFall_of_start hs, hw, if_neg Bool.false_ne_true, hs]

/-- A report that changes the angle is the fall of a pulse of a valid width (R226). -/
theorem PwmRec.valid_fall_of_angle_ne {level : Bool} (h : (r.report level now).angle ≠ r.angle) :
    level = false ∧ r.lastLevel = true ∧ ∃ s0, r.start = some s0 ∧ validWidth (now - s0) = true := by
  by_cases hedge : level = r.lastLevel
  · exact absurd (congrArg PwmRec.angle (PwmRec.report_noEdge hedge)) h
  · rcases level with _ | _
    · have hr : r.lastLevel = true := by simpa using hedge
      rw [PwmRec.report_falling hr] at h
      rcases hs : r.start with _ | s0
      · simp [PwmRec.angleAtFall, hs] at h
      · rw [PwmRec.angleAtFall_of_start hs] at h
        exact ⟨rfl, hr, s0, rfl, by_contra fun hw => h (if_neg hw)⟩
    · have hr : r.lastLevel = false := by simpa using hedge
      exact absurd (congrArg PwmRec.angle (PwmRec.report_rising hr)) h

end report

/-- The shape of the map: flat up to 1000 and from 2000, 9/50 per unit between (R228). -/
theorem pwmAngle_eq (width : Micros) :
    pwmAngle width = if width ≤ 1000 then 0 else if 2000 ≤ width then 180 else (width - 1000) * 9 / 50 := by
  have hslope : pwmAngle width = min (max ((width - 1000) * 9 / 50) 0) 180 := by
    simp only [pwmAngle, clamp, pwmZeroWidth, pwmSpan, pwmFullAngle]
    congr 2
    ring
  rw [hslope]
  split_ifs with hlow hhigh
  · rw [max_eq_right (by linarith)]; norm_num
  · exact min_eq_right (le_max_of_le_left (by linarith))
  · rw [max_eq_left (by linarith), min_eq_left (by linarith)]

/-- The angle after a rise and a fall of an actuator that was low (R223, R224). -/
theorem PwmRec.angle_of_pulse {r : PwmRec} (hlow : r.lastLevel = false) (rise fall : Micros) :
    ((r.report true rise).report false fall).angle =
      if validWidth (fall - rise) then pwmAngle (fall - rise) else r.angle := by
  rw [PwmRec.report_rising hlow, PwmRec.report_falling rfl, PwmRec.angleAtFall_of_start rfl]

/-- The window and the shape of the map together (R223, R228). -/
theorem angle_of_width (width : Micros) (previous : Rat) :
    (if validWidth width then pwmAngle width else previous) =
      if width < 500 ∨ 2500 < width then previous
      else if width ≤ 1000 then 0 else if 2000 ≤ width then 180 else (width - 1000) * 9 / 50 := by
  rcases hw : validWidth width with _ | _
  · rw [if_neg Bool.false_ne_true, if_pos (validWidth_eq_false_iff.mp hw)]
  · have hin : ¬ (width < 500 ∨ 2500 < width) := by simp [← validWidth_eq_false_iff, hw]
    rw [if_pos rfl, if_neg hin, pwmAngle_eq]

/-! ## The operations on the records -/

/-- `pwm.pin` on a live machine (R224). -/
theorem completes_pwmPin (level : Bool) {s : State} (hl : s.live) :
    Completes (.pwmPin level) s ((Claims.entered s).pinLevel s.operands.id level s.operands.now) .unit :=
  completes_of hl rfl rfl

/-- After `pwm.pin` a live machine is live, its actuator's record the one the report makes (R224). -/
theorem exec_pwmPin (level : Bool) {s : State} (hl : s.live) :
    ∃ t, exec (.pwmPin level) s = .next t ∧ t.live ∧ t.block.pwm = PwmMap.put s.operands.id
      ((PwmMap.track s.block.pwm s.operands.id).report level s.operands.now) s.block.pwm :=
  ⟨_, completes_pwmPin level hl, hl, rfl⟩

theorem angleOut_of_put {Ident : Type} [DecidableEq Ident] {b : Block Ident} {id : Ident} {r : PwmRec}
    {m : PwmMap Ident} (h : b.pwm = PwmMap.put id r m) : b.angleOut id = some r.angle := by
  simp [Block.angleOut, h]

theorem PwmMap.track_of_find {Ident : Type} [DecidableEq Ident] {m : PwmMap Ident} {id : Ident} {r : PwmRec}
    (h : PwmMap.find id m = some r) : PwmMap.track m id = r := by
  simp [PwmMap.track, h]

@[simp] theorem PwmMap.track_put_self {Ident : Type} [DecidableEq Ident] (m : PwmMap Ident) (id : Ident)
    (r : PwmRec) : PwmMap.track (PwmMap.put id r m) id = r :=
  PwmMap.track_of_find (PwmMap.find_put_self id r m)

/-- Settles O38: the report is that against the tracked record, by the level it had before and the width at a fall. -/
theorem pinReportTracksTheEdges : Obligations.PinReportTracksTheEdges := by
  unfold Obligations.PinReportTracksTheEdges
  rintro s level p hl rfl
  refine ⟨_, _, completes_pwmPin level hl, PwmMap.find_put_self _ _ _, fun id hid => PwmMap.find_put_of_ne hid _ _,
    ?rising, ?falling, fun hedge => PwmRec.report_noEdge hedge⟩
  case rising =>
    rintro rfl hlow
    exact PwmRec.report_rising hlow
  case falling =>
    rintro s0 rfl hhigh hstart
    exact ⟨fun hmin hmax => PwmRec.report_falling_valid hhigh hstart (validWidth_eq_true_iff.mpr ⟨hmin, hmax⟩),
      fun hout => PwmRec.report_falling_ignored hhigh hstart (validWidth_eq_false_iff.mpr hout)⟩

/-- Settles O39: every record is replaced by the neutral one, under its identifier. -/
theorem resetAllNeutralisesEveryTrackedActuator : Obligations.ResetAllNeutralisesEveryTrackedActuator := by
  unfold Obligations.ResetAllNeutralisesEveryTrackedActuator
  intro s hl
  exact ⟨_, completes_of hl rfl rfl, PwmMap.find_map s.block.pwm PwmRec.neutral⟩

/-- Settles O40: the second report finds the record the first one left, so the width is the difference of their
times. -/
theorem pulseWidthSetsTheAngle : Obligations.PulseWidthSetsTheAngle := by
  unfold Obligations.PulseWidthSetsTheAngle
  intro s o1 o2 p hl hid hp hlow
  have htrack : PwmMap.track s.block.pwm o1.id = p := hp.symm
  obtain ⟨u, hrise, hul, hupwm⟩ := exec_pwmPin true (s := Claims.on s o1) hl
  obtain ⟨t, hfall, -, htpwm⟩ := exec_pwmPin false (s := Claims.on u o2) hul
  simp only [Claims.on, htrack] at hupwm
  simp only [Claims.on, hid, hupwm, PwmMap.track_put_self] at htpwm
  refine ⟨u, t, hrise, hfall, ?_, ?_⟩
  · rw [angleOut_of_put hupwm, PwmRec.report_rising hlow]
  · rw [angleOut_of_put htpwm, PwmRec.angle_of_pulse hlow, angle_of_width]

/-- What an operation makes of the records: the report of its actuator, the reset, or nothing (R224, R225). -/
theorem exec_records {i : Instr} {s t : State} (h : exec i s = .next t) :
    (∃ level, i = .pwmPin level ∧ t.block.pwm = PwmMap.put s.operands.id
      ((PwmMap.track s.block.pwm s.operands.id).report level s.operands.now) s.block.pwm) ∨
    (i = .pwmResetall ∧ t.block.pwm = s.block.pwm.map fun e => (e.1, e.2.neutral)) ∨
    t.block.pwm = s.block.pwm := by
  rcases exec_next h with ⟨_, rfl⟩ | ⟨_, _, rfl⟩
  · rcases finish_block (entry i s) (ruleOf i s.operands (entry i s).block) with
      ⟨b, x, hrule, hb⟩ | ⟨_, _, hb⟩ | ⟨_, _, hb⟩ <;> rw [hb]
    · rcases (rule_units hrule).2.2 with ⟨level, hi, rfl⟩ | ⟨hi, rfl⟩ | hpwm
      · exact Or.inl ⟨level, hi, by simp⟩
      · exact Or.inr (Or.inl ⟨hi, by simp⟩)
      · exact Or.inr (Or.inr (hpwm.trans (entry_pwm i s)))
    · exact Or.inr (Or.inr (entry_pwm i s))
    · exact Or.inr (Or.inr (entry_pwm i s))
  · exact Or.inr (Or.inr rfl)

/-- Settles O41: the records change by a pin report or the reset alone; the report of another actuator, or without a
valid fall, leaves the angle. The premise on the records (R43) is not needed: a fall without a recorded edge leaves the
angle too. -/
theorem anglesChangeOnlyAtValidFallsAndReset : Obligations.AnglesChangeOnlyAtValidFallsAndReset := by
  unfold Obligations.AnglesChangeOnlyAtValidFallsAndReset
  intro i s t id q q' _ h hq hq' hne
  obtain ⟨r, hr, rfl⟩ := Option.map_eq_some_iff.mp hq
  obtain ⟨r', hr', rfl⟩ := Option.map_eq_some_iff.mp hq'
  rcases exec_records h with ⟨level, rfl, hpwm⟩ | ⟨hi, _⟩ | hpwm
  · right
    rw [hpwm] at hr'
    by_cases hid : id = s.operands.id
    · subst hid
      rw [PwmMap.find_put_self, PwmMap.track_of_find hr, Option.some.injEq] at hr'
      subst hr'
      obtain ⟨rfl, hhigh, s0, hstart, hw⟩ := PwmRec.valid_fall_of_angle_ne hne
      exact ⟨rfl, rfl, r, s0, hr, hhigh, hstart, validWidth_eq_true_iff.mp hw⟩
    · rw [PwmMap.find_put_of_ne hid, hr, Option.some.injEq] at hr'
      exact absurd (congrArg PwmRec.angle hr'.symm) hne
  · exact Or.inl hi
  · rw [hpwm, hr, Option.some.injEq] at hr'
    exact absurd (congrArg PwmRec.angle hr'.symm) hne

/-! ## Noninterference -/

/-- A change of the machine that no mark shows commutes with an operation when it commutes with its rule's end: the
preconditions read the marks alone (R140). -/
theorem exec_mapNext {i : Instr} {s : State} {f : State → State} (hc : (f s).block.cfgError = s.block.cfgError)
    (hr : (f s).block.refused = s.block.refused)
    (hf : (entry i (f s)).finish (ruleOf i (f s).operands (entry i (f s)).block) =
      f ((entry i s).finish (ruleOf i s.operands (entry i s).block))) :
    exec i (f s) = Claims.mapNext f (exec i s) := by
  rw [exec_eq, exec_eq, hf]
  simp only [State.precheck, hc, hr]
  rcases s.block.cfgError with _ | c
  · rcases s.block.refused with _ | q <;> rfl
  · rfl

@[simp] theorem withPwm_operands (m : PwmMap) (s : State) : (Claims.withPwm m s).operands = s.operands := rfl
@[simp] theorem withBus_operands (bus : BusState) (devices : List Device) (s : State) :
    (Claims.withBus bus devices s).operands = s.operands := rfl

theorem entry_withPwm (i : Instr) (m : PwmMap) (s : State) :
    entry i (Claims.withPwm m s) = Claims.withPwm m (entry i s) := by cases i <;> rfl

theorem finish_withPwm (m : PwmMap) (s : State) (x : Except Stop (Block × Response)) :
    (Claims.withPwm m s).finish (withPwmAnswer m x) = Claims.withPwm m (s.finish x) := by
  rcases x with (q | c) | ⟨b, r⟩ <;> rfl

theorem entry_withBus (i : Instr) (bus : BusState) (devices : List Device) (s : State) :
    entry i (Claims.withBus bus devices s) = Claims.withBus bus devices (entry i s) := by cases i <;> rfl

/-- Settles O42: the rules of the other units are blind to the records, and the rule of a PWM operation writes the
records alone, from the records alone. -/
theorem pwmAndBusDoNotSeeEachOther : Obligations.PwmAndBusDoNotSeeEachOther := by
  unfold Obligations.PwmAndBusDoNotSeeEachOther
  refine ⟨fun i s m hi => exec_mapNext rfl rfl ?_, fun i s bus devices hi => exec_mapNext rfl rfl ?_⟩
  · rw [entry_withPwm, withPwm_block, withPwm_operands, ruleOf_withPwm hi, finish_withPwm]
  · obtain ⟨g, hg⟩ := ruleOf_pwm hi s.operands
    rw [entry_withBus, withBus_operands, hg, hg]
    rfl

end Sys2Proof.Machine
end

section
/-! PROOFS (60_exceptions.md). A refused machine through a run (R246), the one outcome of an admitted operation (R248),
and what leaves the halt (R257). -/

namespace Sys2Proof.Machine

/-! ## A refused machine -/

/-- A step of a refused machine takes the operation off the port, if one is pending, and does nothing else (R140,
R246). -/
theorem step_refused {s : State} (hc : s.block.cfgError = none) (hr : s.block.refused ≠ none) :
    ∃ u : State, step s = .next u ∧ u.block = s.block ∧ u.responses = s.responses := by
  rcases hp : s.pending with _ | ⟨op, rest⟩
  · exact ⟨s, step_idle hp, rfl, rfl⟩
  · obtain ⟨go, hstep⟩ := step_eq_precheck hp
    exact ⟨s.take op rest, hstep.trans (State.precheck_refused (s := s.take op rest) hc hr go), rfl, rfl⟩

/-- Settles O7, by induction on the number of steps: a step of a refused machine leaves it refused. -/
theorem refusalMarkIsSticky : Obligations.RefusalMarkIsSticky := by
  unfold Obligations.RefusalMarkIsSticky
  intro n
  induction n with
  | zero => exact fun s _ _ _ => ⟨s, rfl, rfl, rfl⟩
  | succ n ih =>
    intro s q hc hr
    obtain ⟨u, hstep, hblock, hresp⟩ := step_refused hc (by simp [hr])
    obtain ⟨t, hrun, ht, htresp⟩ := ih u q (hblock ▸ hc) (hblock ▸ hr)
    exact ⟨t, (run_succ hstep n).trans hrun, ht.trans hblock, htresp.trans hresp⟩

/-! ## The outcome of an admitted operation -/

/-- No rule sets a mark: the block a completed rule of a live machine leaves bears none. -/
theorem unmarked_of_rule {i : Instr} {s : State} {b : Block} {x : Response} (hl : s.live)
    (e : ruleOf i s.operands (entry i s).block = .ok (b, x)) : b.refused = none ∧ b.cfgError = none := by
  obtain ⟨hc, hr⟩ := hl
  obtain ⟨hcfg, href, _⟩ := rule_marks e
  exact ⟨href.trans ((entry_refused i s).trans hr), hcfg.trans ((entry_cfgError i s).trans hc)⟩

/-- Settles O8: a live machine answers the end of the operation's rule, which responds, refuses or raises, and the two
marks were clear. -/
theorem oneOperationReportsOneOutcome : Obligations.OneOperationReportsOneOutcome := by
  unfold Obligations.OneOperationReportsOneOutcome
  intro i s hl
  have hexec := exec_live i hl
  obtain ⟨hc, hr⟩ := hl
  rcases hx : ruleOf i s.operands (entry i s).block with (q | c) | ⟨b, x⟩ <;> rw [hx] at hexec
  case error.refuse =>
    exact ⟨_, hexec, entry_pending i s, entry_operands i s,
      .inr (.inl ⟨q, entry_responses i s, rfl, (entry_cfgError i s).trans hc⟩)⟩
  case error.raise =>
    exact ⟨_, hexec, entry_pending i s, entry_operands i s,
      .inr (.inr ⟨c, entry_responses i s, (entry_refused i s).trans hr, rfl⟩)⟩
  case ok =>
    exact ⟨_, hexec, entry_pending i s, entry_operands i s,
      .inl ⟨x, congrArg (· ++ [x]) (entry_responses i s), unmarked_of_rule ⟨hc, hr⟩ hx⟩⟩

/-! ## Leaving the halt -/

/-- A received byte that starts a halted clock is a data byte at the seconds with bit 7 clear (R190, R257). -/
theorem received_runs {r r' : RtcState} {v : Byte} {t : Millis} (h : Claims.Received r v t r') (hh : r.halted = true)
    (hh' : r'.halted = false) : v.getLsbD 7 = false ∧ r.ptrLoaded = true ∧ r.ptr = 0x00 := by
  have hne : r'.halted ≠ r.halted := by simp [hh, hh']
  obtain ⟨hpointer, hdata⟩ := h
  rcases hp : r.ptrLoaded with _ | _
  · obtain ⟨_, _, _, _, hsame, _⟩ := hpointer hp
    exact absurd hsame hne
  · obtain ⟨_, _, _, _, _, hhalt, _, hhours, hother⟩ := hdata hp
    by_cases h0 : r.ptr.val = 0x00
    · rcases hv : v.getLsbD 7 with _ | _
      · exact ⟨rfl, rfl, Fin.ext h0⟩
      · exact absurd ((hhalt h0 hv).1.trans hh.symm) hne
    · by_cases h2 : r.ptr.val = 0x02
      · obtain ⟨_, hsame, _⟩ := hhours h2
        exact absurd hsame hne
      · obtain ⟨_, hsame, _⟩ := hother h0 h2
        exact absurd hsame hne

/-- Of the operations only a byte write starts a halted clock: the others let it stand still (R196) or, the setter,
keep the halt (R195). -/
theorem rtcAfter_runs {Ident : Type} {i : Instr} {o : SideOperands Ident} {r r' : RtcState} (h : rtcAfter i o r r')
    (hh : r.halted = true) (hh' : r'.halted = false) :
    ∃ v, (i = .busWrite v ∨ i = .devReceive v) ∧ Claims.Received r v o.t r' := by
  rcases hi : Claims.readsOnly i with _ | _
  · cases i with
    | busWrite v =>
      cases h
      exact ⟨v, .inl rfl, received_receiveByte r v o.t⟩
    | devReceive v =>
      cases h
      exact ⟨v, .inr rfl, received_receiveByte r v o.t⟩
    | rtcSettime =>
      cases h
      exact absurd (hh.symm.trans hh') Bool.noConfusion
    | _ => cases hi
  · have hkept := (rtcAfter_clockKept hi hh h).halted
    simp [hh, hh'] at hkept

/-- An operation leaves an RTC as it was or makes of it what `rtcAfter` says. -/
theorem exec_rtcAfter {i : Instr} {s t : State} {h : Handle} {r r' : RtcState} (e : exec i s = .next t)
    (hr : s.block.hasRtc h r) (hr' : t.block.hasRtc h r') : r' = r ∨ rtcAfter i s.operands r r' := by
  have hunchanged (hsame : t.block.device h = s.block.device h) : r' = r := by
    cases hr.symm.trans (hsame.symm.trans hr')
    rfl
  rcases exec_units_or_completes e with ⟨_, hsame, _⟩ | ⟨x, hrule⟩
  · exact .inl (hunchanged (by simp only [Block.device, hsame]))
  · rcases rule_device hrule h with hsame | ⟨q, q', hq, hq', hafter⟩
    · exact .inl (hunchanged (hsame.trans (entry_device i s h)))
    · cases hr.symm.trans ((entry_device i s h).symm.trans hq)
      cases hr'.symm.trans hq'
      exact .inr hafter

/-- Settles O36: the RTC that left the halt was changed by the operation, which is then a byte write, and the byte it
received is one that starts the clock. -/
theorem haltIsLeftOnlyByARunWrite : Obligations.HaltIsLeftOnlyByARunWrite := by
  unfold Obligations.HaltIsLeftOnlyByARunWrite
  intro i s t h r r' e hr hr' hh hh'
  rcases exec_rtcAfter e hr hr' with rfl | hafter
  · exact absurd (hh.symm.trans hh') Bool.noConfusion
  · obtain ⟨v, hi, hreceived⟩ := rtcAfter_runs hafter hh hh'
    exact ⟨v, hi, received_runs hreceived hh hh'⟩

end Sys2Proof.Machine
end

section
/-! PROOFS (70_reset_and_hazards.md). What construction leaves (R270, R271), the end of the setup phase (R270), a field
write to a running clock (R277), and the register read through the Bus (R281), which is run step by step: each step says
what it leaves of the Bus and of the RTC that is read. -/

namespace Sys2Proof.Machine

/-! ## Construction -/

/-- The time registers are those of the seed, in 24-hour mode and running (R185, R271). -/
theorem construct_timeRegister (p : RtcParams) (k : Fin 7) :
    (RtcState.construct p).regs[k] = (timeBytes false false p.seedWall)[k] := by
  simp only [RtcState.construct, Fin.getElem_fin, getElem_writeTimeBytes, k.isLt, dif_pos]

/-- Beyond the time registers construction leaves the blank ones as they are (R185). -/
theorem construct_blankRegister (p : RtcParams) {k : Ptr} (hk : 7 ≤ k.val) :
    (RtcState.construct p).regs[k] = if k.val = 7 then p.initControl else p.initScratch k.val := by
  simp only [RtcState.construct, Fin.getElem_fin, getElem_writeTimeBytes, dif_neg (Nat.not_lt.mpr hk), blankRegs,
    Vector.getElem_ofFn, if_neg (Nat.not_lt.mpr hk)]

theorem construct_scratchRegister (p : RtcParams) {k : Ptr} (hk : 8 ≤ k.val) :
    (RtcState.construct p).regs[k] = p.initScratch k.val :=
  (construct_blankRegister p (Nat.le_of_succ_le hk)).trans (if_neg (by omega))

/-- Settles O44: the marks, the Bus and the records are constants of construction, the devices are those of the list in
order, and the registers of an RTC are the blank ones under its time registers. -/
theorem constructionLeavesTheTabulatedValues : Obligations.ConstructionLeavesTheTabulatedValues := by
  unfold Obligations.ConstructionLeavesTheTabulatedValues
  intro devs b
  have hdevice (h : Handle) : b.device h = devs[h]?.map Device.construct := List.getElem?_map ..
  refine ⟨rfl, rfl, rfl, rfl, fun a => Vector.getElem_replicate .., fun _ => rfl, fun h hlen => ?_, fun h p hp => ?_⟩
  · rw [hdevice, List.getElem?_eq_none hlen, Option.map_none]
  · refine ⟨RtcState.construct p, ?_, rfl, rfl, rfl, rfl, rfl, rfl, rfl, construct_timeRegister p,
      construct_blankRegister p (k := 0x07) le_rfl, fun k => construct_scratchRegister p⟩
    rw [Block.hasRtc, hdevice, hp]
    rfl

/-! ## The end of the setup phase -/

theorem rule_setupDone {i : Instr} {o : SideOperands} {b b' : Block} {x : Response} (e : ruleOf i o b = .ok (b', x)) :
    b'.setupDone = b.setupDone := by
  obtain ⟨_, _, hdone, _⟩ := rule_marks e
  exact hdone

/-- However an operation of a live machine ends, the setup flag is the one its rule started from. -/
theorem exec_setupDone {i : Instr} {s t : State} (hl : s.live) (h : exec i s = .next t) :
    t.block.setupDone = (entry i s).block.setupDone := by
  rw [exec_live i hl] at h
  cases h
  rcases finish_block (entry i s) (ruleOf i s.operands (entry i s).block) with
    ⟨b, x, hx, hb⟩ | ⟨_, _, hb⟩ | ⟨_, _, hb⟩
  · rw [hb, rule_setupDone hx]
  · rw [hb]
  · rw [hb]

/-- Settles O9: no rule writes the setup flag, so it is as the operation's entry leaves it. -/
theorem setupEndsAtTheFirstOtherOperation : Obligations.SetupEndsAtTheFirstOtherOperation := by
  unfold Obligations.SetupEndsAtTheFirstOtherOperation
  refine ⟨fun i s hl hi => ?_, fun s t h hs => ?_, fun a s t h => ?_⟩
  · have hexec := exec_live i hl
    refine ⟨_, hexec, ?_⟩
    rw [exec_setupDone hl hexec, entry_block_of_ne_register hi]
    rfl
  · exact step_keeps (fun b => b.setupDone = true) h hs (fun _ _ hb => hb) (fun _ _ hb => hb)
      (fun i _ hu => entry_setupDone i hu) (fun _ _ _ _ _ hb _ e => (rule_setupDone e).trans hb)
  · rcases exec_next h with ⟨hl, _⟩ | ⟨_, _, rfl⟩
    · exact exec_setupDone hl h
    · rfl

/-! ## A field written to a running clock -/

/-- A byte stored at an offset without a side effect leaves the flags and the references (R167, R193). -/
theorem received_plainData {r r' : RtcState} {v : Byte} {t : Millis} (h : Claims.Received r v t r')
    (hp : r.ptrLoaded = true) (h0 : r.ptr.val ≠ 0x00) (h2 : r.ptr.val ≠ 0x02) :
    r'.mode12 = r.mode12 ∧ r'.halted = r.halted ∧ r'.refWall = r.refWall ∧ r'.refInstant = r.refInstant := by
  obtain ⟨_, hdata⟩ := h
  obtain ⟨_, _, _, _, _, _, _, _, hother⟩ := hdata hp
  exact hother h0 h2

/-- A read of a running clock writes the time registers from the references, whatever they held (R186). -/
theorem produced_running {r r' : RtcState} {ack : Bool} {t : Millis} {v : Byte} (h : Claims.Produced r ack t r' v)
    (hrun : r.halted = false) :
    (∀ p : Fin 7, r'.regs[p] = (timeBytes false r.mode12 (r.refWall + (t - r.refInstant)))[p]) ∧
      r'.refWall = r.refWall ∧ r'.refInstant = r.refInstant := by
  obtain ⟨hframe, _⟩ := produced_frame h
  have hwall := congrArg RtcState.refWall hframe
  have hinstant := congrArg RtcState.refInstant hframe
  obtain ⟨_, ⟨_, hderived⟩, _, rfl, _⟩ := h
  obtain ⟨hregs, _⟩ := hderived hrun
  exact ⟨hregs, hwall, hinstant⟩

/-- Settles O37: the write leaves the references and the hour mode, and the read derives from these alone. -/
theorem fieldWritesToARunningClockAreLost : Obligations.FieldWritesToARunningClockAreLost := by
  unfold Obligations.FieldWritesToARunningClockAreLost
  intro s o v ack r hl hr ho hloaded hrun hptr
  have h0 : r.ptr.val ≠ 0x00 := fun e => by simp [e] at hptr
  have h2 : r.ptr.val ≠ 0x02 := fun e => by simp [e] at hptr
  obtain ⟨hmode, hhalted, hwall, hinstant⟩ :=
    received_plainData (received_receiveByte r v s.operands.t) hloaded h0 h2
  have hwritten : (Claims.putRtc (Claims.entered s) s.operands.h (r.receiveByte v s.operands.t).1).hasRtc o.h
      (r.receiveByte v s.operands.t).1 := by
    rw [ho]
    exact Block.device_setDevice_self (Claims.entered s) _ _ _ hr
  obtain ⟨hregs, hwall', hinstant'⟩ :=
    produced_running (produced_produceByte (r.receiveByte v s.operands.t).1 ack o.t) (hhalted.trans hrun)
  rw [hmode, hwall, hinstant] at hregs
  exact ⟨_, _, _, completes_write hl (.inl ⟨rfl, rfl⟩) hr v, completes_devProduce ack hl hwritten,
    Block.device_setDevice_self _ _ _ _ hwritten, hregs, hwall'.trans hwall, hinstant'.trans hinstant⟩

/-! ## A register read through the Bus -/

/-- Derivation keeps the framing, so one that is reset stays so (R166, R186). -/
theorem RtcState.derive_disconnected (r : RtcState) (t : Millis) :
    { { r with ptrLoaded := false }.derive t with ptrLoaded := false } = { r with ptrLoaded := false }.derive t := by
  unfold RtcState.derive
  split <;> rfl

section readreg

variable {s : State} {o : SideOperands} {rest : List HostOp} {h : Handle} {r : RtcState} {a : Addr7}

/-- A step whose pending operation completes. -/
theorem step_completes {i : Instr} {b : Block} {x : Response} (hwf : i.wf = true)
    (hp : s.pending = ⟨encode i, o⟩ :: rest) (hc : Completes i (s.take ⟨encode i, o⟩ rest) b x) :
    step s = .next ⟨b, rest, o, s.responses ++ [x]⟩ :=
  (step_decoded hp (encodeThenDecodeReturnsTheOperation i hwf)).trans hc

/-- A release leaves an RTC as it was but for its framing (R142, R145). -/
theorem released_rtc {b m : Block} (hm : Claims.Released b m) (hr : b.hasRtc h r) :
    ∃ q, m.hasRtc h q ∧ { q with ptrLoaded := false } = { r with ptrLoaded := false } := by
  rcases release_device (Block.release_of_released hm) h with hsame | ⟨q, hq, hq'⟩
  · exact ⟨r, hsame.trans hr, rfl⟩
  · cases hq.symm.trans hr
    exact ⟨_, hq', rfl⟩

/-- A START at an RTC's own address selects it, whatever was selected before (R142). -/
theorem step_busBegin {m : Block} {isWrite : Bool} (hl : s.live) (hm : Claims.Released (Claims.entered s) m)
    (hb : s.block.bus.map[a] = some h) (hr : s.block.hasRtc h r) (ha : a = r.addr)
    (hp : s.pending = ⟨encode (.busBegin a isWrite), o⟩ :: rest) :
    ∃ u : State, step s = .next u ∧ u.live ∧ u.block.bus = { s.block.bus with selected := some h } ∧
      u.block.hasRtc h { r with ptrLoaded := false } ∧ u.pending = rest ∧
      u.responses = s.responses ++ [.ack true] := by
  obtain ⟨_, hmap, hcfg, href, _⟩ := released_frame hm
  obtain ⟨q, hq, heq⟩ := released_rtc hm hr
  have haddr : a = q.addr := ha.trans (congrArg RtcState.addr heq).symm
  have hbound : m.bound a = some h := by rw [Block.bound, hmap]; exact hb
  have hstep := step_completes (s := s) rfl hp
    (completes_busBegin hl hm (Block.connect_ack isWrite hbound hq haddr))
  refine ⟨_, hstep, ⟨hcfg.trans hl.1, href.trans hl.2⟩, ?_, ?_, rfl, rfl⟩
  · exact congrArg (BusState.mk · (some h)) hmap
  · rw [← heq]
    exact Block.device_setDevice_self m h _ _ hq

/-- A byte read comes from the selected RTC and keeps the selection (R144). -/
theorem step_busRead {ack : Bool} (hl : s.live) (hs : s.block.bus.selected = some h) (hr : s.block.hasRtc h r)
    (hp : s.pending = ⟨encode (.busRead ack), o⟩ :: rest) :
    ∃ u : State, step s = .next u ∧ u.live ∧ u.block.bus = s.block.bus ∧
      u.block.hasRtc h (r.produceByte ack o.t).1 ∧ u.pending = rest ∧
      u.responses = s.responses ++ [.byte (r.produceByte ack o.t).2] := by
  have hrule := Block.readByte_selected (b := Claims.entered s) hs hr ack o.t
  have hstep := step_completes (s := s) rfl hp (completes_of hl rfl hrule)
  exact ⟨_, hstep, hl, rfl, Block.device_setDevice_self (Claims.entered s) h _ _ hr, rfl, rfl⟩

/-- A STOP with an RTC selected resets its framing and leaves nothing selected (R145). -/
theorem step_busEnd (hl : s.live) (hs : s.block.bus.selected = some h) (hr : s.block.hasRtc h r)
    (hp : s.pending = ⟨encode .busEnd, o⟩ :: rest) :
    ∃ u : State, step s = .next u ∧ u.block.bus.selected = none ∧ u.block.hasRtc h { r with ptrLoaded := false } ∧
      u.responses = s.responses ++ [.unit] := by
  have hrule := Block.endTransaction_of_release
    (Block.release_of_released (b := Claims.entered s) (.inr ⟨h, r, hs, hr, rfl⟩))
  have hstep := step_completes (s := s) rfl hp (completes_of hl rfl hrule)
  exact ⟨_, hstep, rfl, Block.device_setDevice_self (Claims.entered s) h _ _ hr, rfl⟩

/-- A START and the pointer byte p select the RTC at its own address and load its pointer (R142, R162). -/
theorem run_loadPointer {p : Byte} (hl : s.live) (hsound : s.block.selectionSound)
    (hb : s.block.bus.map[a] = some h) (hr : s.block.hasRtc h r) (ha : a = r.addr)
    (hp : s.pending = ⟨encode (.busBegin a true), o⟩ :: ⟨encode (.busWrite p), o⟩ :: rest) :
    ∃ u : State, (∀ n, Host.Core.run core (n + 2) s = Host.Core.run core n u) ∧ u.live ∧
      u.block.bus = { s.block.bus with selected := some h } ∧
      u.block.hasRtc h { r with ptr := pointerOf p, ptrLoaded := true } ∧ u.pending = rest ∧
      u.responses = s.responses ++ [.ack true, .ack true] := by
  obtain ⟨m, hm⟩ := Block.exists_released (b := Claims.entered s) hsound
  obtain ⟨w, hstart, hlw, hbus, hrw, hpw, hxw⟩ := step_busBegin hl hm hb hr ha hp
  have hsel : w.block.bus.selected = some h := by rw [hbus]
  obtain ⟨u, hwrite, hlu, hbus', hru, hpu, hxu⟩ := step_write (write := .busWrite) hlw (.inr ⟨rfl, hsel⟩) hrw hpw
  rw [RtcState.receiveByte_pointer rfl] at hru
  refine ⟨u, fun n => (run_succ hstart _).trans (run_succ hwrite n), hlu, hbus'.trans hbus, hru, hpu, ?_⟩
  rw [hxu, hxw, List.append_assoc]
  rfl

/-- A repeated START, one byte not acknowledged and a STOP read the register at the pointer of the derived RTC, and
leave the RTC derived and the framing reset (R142, R145, R165). -/
theorem run_readLast (hl : s.live) (hsel : s.block.bus.selected = some h) (hb : s.block.bus.map[a] = some h)
    (hr : s.block.hasRtc h r) (ha : a = r.addr) (hp : s.pending = Claims.ops o (Pseudo.i2cRead a 1).busOps) :
    ∃ t : State, Host.Core.run core 3 s = .next t ∧ t.block.bus.selected = none ∧
      t.block.hasRtc h ({ r with ptrLoaded := false }.derive o.t) ∧
      t.responses =
        s.responses ++ [.ack true, .byte (({ r with ptrLoaded := false }.derive o.t).read r.ptr), .unit] := by
  obtain ⟨w, hstart, hlw, hbus, hrw, hpw, hxw⟩ := step_busBegin hl (.inr ⟨h, r, hsel, hr, rfl⟩) hb hr ha hp
  have hselw : w.block.bus.selected = some h := by rw [hbus]
  obtain ⟨u, hread, hlu, hbus', hru, hpu, hxu⟩ := step_busRead hlw hselw hrw hpw
  have hselu : u.block.bus.selected = some h := by rw [hbus', hselw]
  obtain ⟨t, hstop, hselt, hrt, hxt⟩ := step_busEnd hlu hselu hru hpu
  refine ⟨t, ?_, hselt, ?_, ?_⟩
  · rw [run_succ hstart, run_succ hread, run_succ hstop]
    rfl
  · rwa [RtcState.produceByte, if_neg Bool.noConfusion, RtcState.derive_disconnected] at hrt
  · rw [hxt, hxu, hxw, List.append_assoc, List.append_assoc]
    rfl

end readreg

/-- Settles O27: the pointer write loads p, and the read that follows, which keeps the pointer, finds the register at p
of the RTC derived there. -/
theorem readregReturnsTheRegister : Obligations.ReadregReturnsTheRegister := by
  unfold Obligations.ReadregReturnsTheRegister
  intro s o a p h r hl hsound hbound hr haddr _ hpending
  obtain ⟨u, hrun, hlu, hbus, hru, hpu, hxu⟩ := run_loadPointer hl hsound hbound hr haddr.symm hpending
  have hselu : u.block.bus.selected = some h := by rw [hbus]
  have hboundu : u.block.bus.map[a] = some h := by rw [hbus]; exact hbound
  obtain ⟨t, hrun', hselt, hrt, hxt⟩ := run_readLast hlu hselu hboundu hru haddr.symm hpu
  refine ⟨t, _, (hrun 3).trans hrun', hrt, derived_derive _ o.t, hselt, ?_⟩
  rw [hxt, hxu, List.append_assoc]
  rfl

end Sys2Proof.Machine
end
